-- ==== Sys2Proof/Config.lean ====
section
/-! DEFINITION. The parameters of spec/00_scope.md R7, R8 and R9. Those of R7 are fixed by the spec
("no rule allows another value"); only `bufMax` is left to a realisation. Widths are the types of
Sys2Proof/Word.lean and Sys2Proof/Syntax.lean. -/

namespace Sys2Proof.Config

/-- `VER_POS`: left shift of `version` inside `packetId`. -/
@[simp] abbrev verPos : Nat := 13
/-- `TYPE_POS`: left shift of `packetType` inside `packetId` (spec/90_conflicts.md C1; log entry 11). -/
@[simp] abbrev typePos : Nat := 11
/-- `SHF_POS`: left shift of `secondaryHeaderFlag` inside `packetId`; it lies inside the APID field (C1, C2; log entry 11). -/
@[simp] abbrev shfPos : Nat := 10
/-- `APID_POS`: left shift of `apid` inside `packetId`. -/
@[simp] abbrev apidPos : Nat := 0
/-- `FLAGS_POS`: left shift of `sequenceFlags` inside `sequenceWord`. -/
@[simp] abbrev flagsPos : Nat := 14
/-- `COUNT_POS`: left shift of `sequenceCount` inside `sequenceWord`. -/
@[simp] abbrev countPos : Nat := 0

/-- `SEQ_MOD`: modulus of each counter. -/
@[simp] abbrev seqMod : Nat := 16384
/-- `HDR_LEN`: octets in the primary header. -/
@[simp] abbrev hdrLen : Nat := 6
/-- `PAYLOAD_MIN`: least payload length BUILD accepts. -/
@[simp] abbrev payloadMin : Nat := 1
/-- `PAYLOAD_MAX`: greatest payload length BUILD accepts. -/
@[simp] abbrev payloadMax : Nat := 65536
/-- `FRAME_MAX` (R8): the longest frame BUILD can emit. -/
@[simp] abbrev frameMax : Nat := hdrLen + payloadMax

/-- `BUILD_VERSION`: the version BUILD emits. -/
@[simp] abbrev buildVersion : BitVec 3 := 0
/-- `BUILD_SHF`: the secondary-header flag BUILD feeds the packer. -/
@[simp] abbrev buildShf : BitVec 1 := 0
/-- `BUILD_FLAGS`: Unsegmented, the sequence flags BUILD emits. -/
@[simp] abbrev buildFlags : BitVec 2 := 0b11

/-- `BUF_MAX` (R9): the greatest length of a buffer; `none` is unbounded, which is how R9 says a
model takes buffers. No rule reads it, and the step does not either. (Log entry 7.) -/
def bufMax : Option Nat := none

/-- A bounded realisation must have `BUF_MAX` at least `FRAME_MAX` (R9). -/
def legalBufMax : Option Nat → Bool
  | none => true
  | some m => decide (frameMax ≤ m)

end Sys2Proof.Config
end

