-- ==== Sys2Proof/Word.lean ====
section
/-! DEFINITION. The words of the SPP codec block, each at the width spec/00_scope.md R7 fixes.
Every quantity is unsigned and bit 0 is the least significant bit (R10). -/

namespace Sys2Proof

/-- An octet, 8 bits (R12). -/
abbrev Byte := BitVec 8

/-- One of the three 16-bit header words (R60). -/
abbrev HeaderWord := BitVec 16

/-- The six header octets as one value, the octet at offset 0 most significant (R44, R62). -/
abbrev Header := BitVec 48

/-- A 14-bit sequence count, and the width of each counter (`SEQ_W` of R7, R21, R22). -/
abbrev Count := BitVec 14

/-- The 11-bit application process identifier (`APID_W` of R7). -/
abbrev Apid := BitVec 11

/-- The 50 bits of a command record that are no buffer: two of `op`, 48 of operands
(the widths of R74; DESIGN CHOICE, log entry 3). -/
abbrev ControlWord := BitVec 50

end Sys2Proof
end

