-- ==== Sys2Proof/Syntax.lean ====
section
/-! DEFINITION. The operations of the block as terms: one constructor of `Instr` for each row of
spec/opcode_table.json (spec/30_encoding.md R73, R74). Every operand has exactly the width R74 gives
it, so a value outside a field's range cannot be written down (R113, D7). -/

namespace Sys2Proof

/-- A direction: Telemetry or Command (spec/00_scope.md R14). -/
inductive Dir where
  | tm
  | tc
deriving DecidableEq, Repr

/-- The other direction. -/
def Dir.other : Dir → Dir
  | .tm => .tc
  | .tc => .tm

/-- The seven header fields (R65, R77): PACK's operands and UNPACK's result. -/
structure HeaderFields where
  version : BitVec 3
  packetType : BitVec 1
  secondaryHeaderFlag : BitVec 1
  apid : Apid
  sequenceFlags : BitVec 2
  sequenceCount : Count
  dataLength : BitVec 16
deriving DecidableEq, Repr

/-- The four operations with their operands (R74). -/
inductive Instr where
  /-- BUILD: direction, application process identifier, payload `PIN` (R105). -/
  | build (dir : Dir) (apid : Apid) (pin : List Byte)
  /-- PARSE: the received buffer `BIN` (R125). -/
  | parse (bin : List Byte)
  /-- PACK: the seven header fields (R100). -/
  | pack (fields : HeaderFields)
  /-- UNPACK: a 48-bit header (R120). -/
  | unpack (header : Header)
deriving DecidableEq, Repr

/-- A command record as the host presents it, before it is decoded: the control word and the one
buffer that goes with it (empty where the operation has none). A buffer carries its own length, as
spec/20_memory.md R41 says. (DESIGN CHOICE, log entry 3.) -/
structure Record where
  control : ControlWord
  buffer : List Byte
deriving DecidableEq, Repr

end Sys2Proof
end

