-- ==== Sys2Proof/Machine/State.lean ====
section
/-! DEFINITION. The state of one instance of the block (spec/10_state.md), its responses
(spec/30_encoding.md R75 to R77) and the reasons a step can stop. -/

namespace Sys2Proof.Machine

/-- `CodecState`: the two sequence counters, which are the whole architectural state (R20, R21, R22). -/
structure CodecState where
  /-- `SEQ[TM]`, the Telemetry counter (R21). -/
  seqTM : Count
  /-- `SEQ[TC]`, the Command counter (R22). -/
  seqTC : Count
deriving DecidableEq, Repr

/-- The three typed failures; the set is closed (spec/60_exceptions.md R140). -/
inductive Failure where
  | invalidPayload
  | headerTooShort
  | truncatedPayload
deriving DecidableEq, Repr

/-- The record PARSE returns: the seven header fields and the payload `POUT` (R77). -/
structure SpacePacket where
  header : HeaderFields
  payload : List Byte
deriving DecidableEq, Repr

/-- What a successful operation returns (R75). -/
inductive OkResult where
  /-- BUILD: the frame `FOUT`. -/
  | frame (fout : List Byte)
  /-- PARSE: the SpacePacket. -/
  | packet (p : SpacePacket)
  /-- PACK: the 48-bit header. -/
  | header (h : Header)
  /-- UNPACK: the seven fields. -/
  | fields (f : HeaderFields)
deriving DecidableEq, Repr

/-- A response: OK with a result, or one of three failures with nothing (R147). -/
inductive Response where
  | ok (result : OkResult)
  | failed (reason : Failure)
deriving DecidableEq, Repr

/-- What the host can do between operations (spec/60_exceptions.md R162): present an operation, or reset the block. -/
inductive HostMove where
  | operation (record : Record)
  | reset
deriving DecidableEq, Repr

/-- What one taken move leaves in the trace: the operation's response, or the mark of a reset event,
which gives nothing back (R162). -/
inductive Shown where
  | response (r : Response)
  | wasReset
deriving DecidableEq, Repr

/-- One instance of the block with its two ports. Only `codec` is state of the block (R20); the ports
carry the command and the response that R163 passes to and from the step (log entries 1 and 2). -/
structure State where
  /-- The two counters. -/
  codec : CodecState
  /-- The host's moves not yet taken, in acceptance order (R51, R52). -/
  requests : List HostMove
  /-- What the host has been shown, newest first. No operation reads it. -/
  trace : List Shown
deriving DecidableEq, Repr

/-- Faults of the machine: none. A failed operation is an ordinary response with unchanged state
(R149, spec/90_conflicts.md C7), and no operation is undefined (spec/93_implementation_defined.md). -/
inductive Fault
deriving DecidableEq, Repr

/-- Reasons to give an operation no meaning. -/
inductive Refusal where
  /-- Raised by an arm of `exec` whose operation has no meaning yet; no arm is. Safe: the machine stops. -/
  | notModelled (mnemonic : String)
deriving DecidableEq, Repr

/-- The state right after reset: both counters 0 (R33), nothing presented and nothing shown
(DESIGN CHOICE, log entries 1 and 2). -/
def State.reset : State where
  codec := { seqTM := 0, seqTC := 0 }
  requests := []
  trace := []

end Sys2Proof.Machine
end

