-- ==== Sys2Proof/Machine/Ops.lean ====
section
/-! DEFINITION. The named operations every meaning is written over: the counters
(spec/40_sequence_counter.md), the memory primitives (spec/20_memory.md R43), the response of an
operation, and raising a failure (spec/60_exceptions.md R146, R147). -/

namespace Sys2Proof.Machine

/-- `next(c)` = (c + 1) mod 16384 (R90). -/
def nextCount (c : Count) : Count := BitVec.ofNat 14 ((c.toNat + 1) % Config.seqMod)

/-- Read of counter register `SEQ[d]` (spec/00_scope.md R13). -/
def State.seq (s : State) : Dir → Count
  | .tm => s.codec.seqTM
  | .tc => s.codec.seqTC

/-- Write of counter register `SEQ[d]` (spec/00_scope.md R13). -/
def State.setSeq (s : State) (d : Dir) (v : Count) : State :=
  match d with
  | .tm => { s with codec := { s.codec with seqTM := v } }
  | .tc => { s with codec := { s.codec with seqTC := v } }

/-- SEQ_NEXT `d`: advance one counter and yield its new value (R91). -/
def seqNext (d : Dir) (s : State) : Count × State :=
  (nextCount (s.seq d), s.setSeq d (nextCount (s.seq d)))

/-- The reset event: both counters 0 at once, no other effect (spec/70_reset_and_hazards.md R170). The
trace keeps a mark of it, since it has no response (R162; log entry 2). -/
def State.resetEvent (s : State) : State :=
  { s with codec := { seqTM := 0, seqTC := 0 }, trace := .wasReset :: s.trace }

/-- Give the operation's response to the host. -/
def State.respond (s : State) (r : Response) : State :=
  { s with trace := .response r :: s.trace }

/-- `return v`: the operation ends with status OK and result `v` (spec/00_scope.md R13). -/
def returnOk (v : OkResult) (s : State) : Host.Outcome State Fault Refusal :=
  .next (s.respond (.ok v))

/-- `raise X`, which is all there is to taking an exception: the operation ends at once, its response is
the failure alone, no register is written, control goes nowhere (R13, R146, R147, R148). There is
no handler, so there is nothing to return from (R150). -/
def raise (x : Failure) (s : State) : Host.Outcome State Fault Refusal :=
  .next (s.respond (.failed x))

/-- `MemRead(B+off, 2)`: big-endian (R43). The bound is an argument, so no read leaves its buffer (R49). -/
def memRead (b : List Byte) (off : Nat) (h : off + 2 ≤ b.length) : HeaderWord :=
  (b[off].setWidth 16 <<< 8) ||| b[off + 1].setWidth 16

/-- `MemWrite(B+off, 2, v)`: big-endian (R43). -/
def memWrite (b : List Byte) (off : Nat) (v : HeaderWord) : List Byte :=
  (b.set off (v.extractLsb' 8 8)).set (off + 1) (v.extractLsb' 0 8)

/-- Store octets one after another from offset `off` on: the payload loop of R105 (R45). -/
def storeOctets : List Byte → Nat → List Byte → List Byte
  | b, _, [] => b
  | b, off, x :: xs => storeOctets (b.set off x) (off + 1) xs

/-- `B[i : j]`, half open (spec/00_scope.md R12). -/
def slice (b : List Byte) (i j : Nat) : List Byte := (b.take j).drop i

end Sys2Proof.Machine
end

