-- ==== Sys2Proof/Machine/Flags.lean ====
section
/-! DEFINITION. The block has no flags and no condition codes (spec/10_state.md R27): the outcome of an
operation is its status. This file holds the conditions that decide the status (spec/60_exceptions.md
R140) and the status codes (spec/30_encoding.md R76). -/

namespace Sys2Proof.Machine

/-- `InvalidPayload`: the payload is empty or longer than 65536 octets (R141). -/
abbrev payloadRefused (pin : List Byte) : Prop :=
  pin.length < Config.payloadMin ∨ Config.payloadMax < pin.length

/-- `HeaderTooShort`: fewer octets than a header (R142). -/
abbrev headerMissing (bin : List Byte) : Prop := bin.length < Config.hdrLen

/-- `TruncatedPayload`: fewer octets than the header declares. The bound is a natural number, not reduced
mod 65536 (R143, R126). -/
abbrev payloadTruncated (bin : List Byte) (dataLength : BitVec 16) : Prop :=
  bin.length < Config.hdrLen + dataLength.toNat + 1

/-- The numeric code of a failure (R76, R140). -/
def Failure.code : Failure → Nat
  | .invalidPayload => 1
  | .headerTooShort => 2
  | .truncatedPayload => 3

/-- The status code of a response: 0 is OK (R76). -/
def Response.statusCode : Response → Nat
  | .ok _ => 0
  | .failed x => x.code

end Sys2Proof.Machine
end

