-- ==== Sys2Proof/Decode.lean ====
section
/-! DEFINITION. Command records to operations and back.

The spec fixes which operation a select code names (spec/30_encoding.md R73) and the width of every
operand (R74); it fixes no bit positions inside a command record. The positions are the model's
(DESIGN CHOICE, log entry 3), bit 0 least significant:

| bits of the control word | BUILD | PARSE | PACK | UNPACK |
|---|---|---|---|---|
| 1 to 0 | 0 | 1 | 2 | 3 |
| 49 to 2 | `dir` at 2, `apid` at 13 to 3 | none | the seven fields, `version` highest | `H` |

Bits and buffers that an operation does not take are not read (R40, R74; log entry 4), so every
record is some operation, as R78 says. -/

namespace Sys2Proof

/-- The `dir` operand and the header bit `packetType` of a direction: 0 for TM, 1 for TC (R14). -/
def Dir.bit : Dir → BitVec 1
  | .tm => 0
  | .tc => 1

/-- The direction of a `dir` operand bit (R14). -/
def Dir.ofBit (b : BitVec 1) : Dir := if b = 1#1 then .tc else .tm

/-- The 2-bit select code of an operation (R73). -/
def Instr.opCode : Instr → BitVec 2
  | .build _ _ _ => 0
  | .parse _ => 1
  | .pack _ => 2
  | .unpack _ => 3

/-- The seven fields in the control word of a PACK record. -/
def fieldsOfControl (c : ControlWord) : HeaderFields where
  version := c.extractLsb' 47 3
  packetType := c.extractLsb' 46 1
  secondaryHeaderFlag := c.extractLsb' 45 1
  apid := c.extractLsb' 34 11
  sequenceFlags := c.extractLsb' 32 2
  sequenceCount := c.extractLsb' 18 14
  dataLength := c.extractLsb' 2 16

/-- The operation a record presents. Every record presents one: all four select codes are assigned (R78). -/
def decode (r : Record) : Instr :=
  match r.control.getLsbD 1, r.control.getLsbD 0 with
  | false, false => .build (Dir.ofBit (r.control.extractLsb' 2 1)) (r.control.extractLsb' 3 11) r.buffer
  | false, true => .parse r.buffer
  | true, false => .pack (fieldsOfControl r.control)
  | true, true => .unpack (r.control.extractLsb' 2 48)

/-- A field in a wider word: its bits from bit `pos` on, zeros elsewhere (`zext` and shift of
spec/00_scope.md R11 and R13). -/
def place {n : Nat} (w pos : Nat) (v : BitVec n) : BitVec w := v.setWidth w <<< pos

/-- Why a string of octets is no command record. -/
inductive DecodeError where
  /-- Fewer than the seven octets of a control word. -/
  | controlTooShort
  /-- A bit above bit 49 of the control word is set. -/
  | controlTooWide
deriving DecidableEq, Repr

/-- Read a record from octets: seven octets of control word, the least significant first, then the
buffer's octets to the end of the record (DESIGN CHOICE, log entry 9). -/
def recordOfOctets : List Byte → Except DecodeError Record
  | b0 :: b1 :: b2 :: b3 :: b4 :: b5 :: b6 :: buffer =>
    if b6.extractLsb' 2 6 = 0#6 then
      .ok ⟨place 50 48 b6 ||| place 50 40 b5 ||| place 50 32 b4 ||| place 50 24 b3 ||| place 50 16 b2 |||
        place 50 8 b1 ||| place 50 0 b0, buffer⟩
    else .error .controlTooWide
  | _ => .error .controlTooShort

/-- Decode any string of octets, or say why it is no record. -/
def decodeOctets (bs : List Byte) : Except DecodeError Instr :=
  (recordOfOctets bs).map decode

/-- The `n` octets of a number, least significant first. -/
def layOctets : Nat → Nat → List Byte
  | 0, _ => []
  | n + 1, w => BitVec.ofNat 8 w :: layOctets n (w / 256)

/-- The octets of a table word: its own, and zeros up to a whole control word. -/
def tableOctets (nbits w : Nat) : List Byte :=
  layOctets (max 7 (nbits / 8)) (w % 2 ^ nbits)

/-- The operation the decoder reads from a word numbered as spec/opcode_table.json numbers it. -/
def decodeTableWord (nbits w : Nat) : Option Instr :=
  match decodeOctets (tableOctets nbits w) with
  | .ok i => some i
  | .error _ => none

/-- The control word of a table word, for a fetch. -/
def tableRecord (nbits w : Nat) : Record where
  control := BitVec.ofNat 50 (w % 2 ^ nbits)
  buffer := (tableOctets nbits w).drop 7

/-- The record that presents an operation; bits it does not take are 0 and its buffer is empty where it has none. -/
def encode (i : Instr) : Record :=
  match i with
  | .build dir apid pin => ⟨place 50 0 i.opCode ||| place 50 2 dir.bit ||| place 50 3 apid, pin⟩
  | .parse bin => ⟨place 50 0 i.opCode, bin⟩
  | .pack f =>
    ⟨place 50 0 i.opCode ||| place 50 47 f.version ||| place 50 46 f.packetType |||
      place 50 45 f.secondaryHeaderFlag ||| place 50 34 f.apid ||| place 50 32 f.sequenceFlags |||
      place 50 18 f.sequenceCount ||| place 50 2 f.dataLength, []⟩
  | .unpack h => ⟨place 50 0 i.opCode ||| place 50 2 h, []⟩

/-- The octets of a record. -/
def Record.octets (r : Record) : List Byte :=
  [r.control.extractLsb' 0 8, r.control.extractLsb' 8 8, r.control.extractLsb' 16 8,
    r.control.extractLsb' 24 8, r.control.extractLsb' 32 8, r.control.extractLsb' 40 8,
    (r.control.extractLsb' 48 2).setWidth 8] ++ r.buffer

/-- The octets that present an operation. -/
def encodeOctets (i : Instr) : List Byte := (encode i).octets

end Sys2Proof
end

