-- ==== Sys2Proof/Machine/Operands.lean ====
section
/-! DEFINITION. The header as an operand and as a result: field assembly (spec/30_encoding.md R68, R69,
R70), field extraction (R71), and the three views of a header (spec/20_memory.md R44). -/

namespace Sys2Proof.Machine

/-- `packetId` from its fields (R68). Bit 10 takes both the flag and `apid[10]` (R66); no term reaches bit 12 (R67). -/
def assemblePacketId (f : HeaderFields) : HeaderWord :=
  (f.version.setWidth 16 <<< Config.verPos) ||| (f.packetType.setWidth 16 <<< Config.typePos) |||
    (f.secondaryHeaderFlag.setWidth 16 <<< Config.shfPos) ||| (f.apid.setWidth 16 <<< Config.apidPos)

/-- `sequenceWord` from its fields (R69). -/
def assembleSequenceWord (f : HeaderFields) : HeaderWord :=
  (f.sequenceFlags.setWidth 16 <<< Config.flagsPos) ||| (f.sequenceCount.setWidth 16 <<< Config.countPos)

/-- `H` = {packetId, sequenceWord, dataLength} (R44). -/
def headerOfWords (packetId sequenceWord dataLength : HeaderWord) : Header :=
  place 48 32 packetId ||| place 48 16 sequenceWord ||| place 48 0 dataLength

/-- `H` = {h0, h1, h2, h3, h4, h5} (R44). -/
def headerOfOctets (h0 h1 h2 h3 h4 h5 : Byte) : Header :=
  place 48 40 h0 ||| place 48 32 h1 ||| place 48 24 h2 ||| place 48 16 h3 ||| place 48 8 h4 ||| place 48 0 h5

/-- `H[47:32]` (R44). -/
def packetIdWord (h : Header) : HeaderWord := h.extractLsb' 32 16
/-- `H[31:16]` (R44). -/
def sequenceWordWord (h : Header) : HeaderWord := h.extractLsb' 16 16
/-- `H[15:0]` (R44). -/
def dataLengthWord (h : Header) : HeaderWord := h.extractLsb' 0 16

/-- The six octets of a header, the most significant first (R44). -/
def octetsOfHeader (h : Header) : List Byte :=
  [h.extractLsb' 40 8, h.extractLsb' 32 8, h.extractLsb' 24 8, h.extractLsb' 16 8, h.extractLsb' 8 8,
    h.extractLsb' 0 8]

/-- The pure packer (spec/41_encoder.md R100). -/
def packHeader (f : HeaderFields) : Header :=
  headerOfWords (assemblePacketId f) (assembleSequenceWord f) f.dataLength

/-- The pure unpacker: shift, then mask (spec/42_decoder.md R120, R71). -/
def unpackHeader (h : Header) : HeaderFields where
  version := ((packetIdWord h >>> Config.verPos) &&& 0x7).setWidth 3
  packetType := ((packetIdWord h >>> Config.typePos) &&& 0x1).setWidth 1
  secondaryHeaderFlag := ((packetIdWord h >>> Config.shfPos) &&& 0x1).setWidth 1
  apid := (packetIdWord h &&& 0x7FF).setWidth 11
  sequenceFlags := ((sequenceWordWord h >>> Config.flagsPos) &&& 0x3).setWidth 2
  sequenceCount := (sequenceWordWord h &&& 0x3FFF).setWidth 14
  dataLength := dataLengthWord h

/-- The fields BUILD feeds the packer: its constants, the operands, the new count `n` and
`dataLength` = `len(PIN)` - 1 (R105, R70, R109). -/
def buildFields (dir : Dir) (apid : Apid) (n : Count) (pin : List Byte) : HeaderFields where
  version := Config.buildVersion
  packetType := dir.bit
  secondaryHeaderFlag := Config.buildShf
  apid := apid
  sequenceFlags := Config.buildFlags
  sequenceCount := n
  dataLength := BitVec.ofNat 16 (pin.length - 1)

/-- The header at the start of a buffer: three big-endian words at offsets 0, 2 and 4 (R125). -/
def readHeader (b : List Byte) (h : Config.hdrLen ≤ b.length) : Header :=
  headerOfWords (memRead b 0 (Nat.le_trans (by decide) h)) (memRead b 2 (Nat.le_trans (by decide) h))
    (memRead b 4 h)

/-- `FOUT` before it is written: `n` octets, each of which BUILD then writes (log entry 10). -/
def freshBuffer (n : Nat) : List Byte := List.replicate n 0

/-- The three header words into the first six octets of a buffer (R105). -/
def writeHeader (b : List Byte) (h : Header) : List Byte :=
  memWrite (memWrite (memWrite b 0 (packetIdWord h)) 2 (sequenceWordWord h)) 4 (dataLengthWord h)

/-- The frame in `FOUT`: header words, then the payload from offset 6 on (R105, R48). -/
def writeFrame (fout : List Byte) (h : Header) (pin : List Byte) : List Byte :=
  storeOctets (writeHeader fout h) Config.hdrLen pin

end Sys2Proof.Machine
end

