-- ==== Sys2Proof/Machine/Decoder.lean ====
section
/-! DEFINITION. The decoder unit: PARSE and UNPACK (spec/42_decoder.md). -/

namespace Sys2Proof.Machine

/-- PARSE (R125): the header check, the header, the explicit payload check (R126, R127), then the slice;
octets after the declared payload are ignored (R128). -/
def execParse (bin : List Byte) (s : State) : Host.Outcome State Fault Refusal :=
  if short : headerMissing bin then raise .headerTooShort s
  else
    let f := unpackHeader (readHeader bin (Nat.le_of_not_lt short))
    if payloadTruncated bin f.dataLength then raise .truncatedPayload s
    else
      returnOk (.packet ⟨f, slice bin Config.hdrLen (Config.hdrLen + f.dataLength.toNat + 1)⟩) s

/-- UNPACK (R120): pure and total. -/
def execUnpack (header : Header) (s : State) : Host.Outcome State Fault Refusal :=
  returnOk (.fields (unpackHeader header)) s

end Sys2Proof.Machine
end

