-- ==== Sys2Proof/Machine/Encoder.lean ====
section
/-! DEFINITION. The encoder unit: BUILD and PACK (spec/41_encoder.md). -/

namespace Sys2Proof.Machine

/-- BUILD (R105): the length check first (R106), then SEQ_NEXT, PACK with BUILD's constants, and the
writes into `FOUT`. -/
def execBuild (dir : Dir) (apid : Apid) (pin : List Byte) (s : State) : Host.Outcome State Fault Refusal :=
  if payloadRefused pin then raise .invalidPayload s
  else
    let n := (seqNext dir s).1
    let h := packHeader (buildFields dir apid n pin)
    returnOk (.frame (writeFrame (freshBuffer (Config.hdrLen + pin.length)) h pin)) (seqNext dir s).2

/-- PACK (R100): pure and total. -/
def execPack (fields : HeaderFields) (s : State) : Host.Outcome State Fault Refusal :=
  returnOk (.header (packHeader fields)) s

end Sys2Proof.Machine
end

