-- ==== Sys2Proof/Machine/Dispatch.lean ====
section
/-! DEFINITION. One arm for each operation of spec/opcode_table.json. -/

namespace Sys2Proof.Machine

def exec (i : Instr) (s : State) : Host.Outcome State Fault Refusal :=
  match i with
  | .build dir apid pin => Sys2Proof.Machine.execBuild dir apid pin s
  | .parse bin => Sys2Proof.Machine.execParse bin s
  | .pack fields => Sys2Proof.Machine.execPack fields s
  | .unpack header => Sys2Proof.Machine.execUnpack header s

end Sys2Proof.Machine
end

