-- ==== Sys2Proof/Machine/Step.lean ====
section
/-! DEFINITION. One step takes one move of the host, whole (spec/20_memory.md R50, R51): an operation is
decoded and executed, a reset event clears both counters between operations (R172), and with no move
the block idles (log entry 5). -/

namespace Sys2Proof.Machine

/-- One indivisible transition of the block (spec/60_exceptions.md R163). -/
def step (s : State) : Host.Outcome State Fault Refusal :=
  match s.requests with
  | [] => .next s
  | .reset :: rest => .next { s with requests := rest }.resetEvent
  | .operation r :: rest => exec (decode r) { s with requests := rest }

/-- `s` with a table word presented as the operation the next step takes (log entry 6). -/
def State.withFetchWord (s : State) (nbits w : Nat) : State :=
  { s with requests := .operation (tableRecord nbits w) :: s.requests }

end Sys2Proof.Machine
end

