-- ==== Sys2Proof/Safety.lean ====
section
/-! DEFINITION. What claims about runs are stated in: a run of a list of host moves
(spec/60_exceptions.md R163), what a trace says of the frames of one direction, and the two
invariants that tie the counters to the frames the host has been shown. -/

namespace Sys2Proof.Machine

/-- A safe step answers a next state: no fault, no refusal (R162, R183). -/
def Safe (s : State) : Prop := ∃ t, step s = .next t

/-- `n` steps from `s`, stopping at the first that answers no next state. -/
def runSteps : Nat → State → Host.Outcome State Fault Refusal
  | 0, s => .next s
  | n + 1, s =>
    match step s with
    | .next t => runSteps n t
    | .fault r => .fault r
    | .refused r => .refused r

/-- Run a list of host moves from `s`, one step a move (R163). -/
def runMoves (moves : List HostMove) (s : State) : Host.Outcome State Fault Refusal :=
  runSteps moves.length { s with requests := moves }

/-- The direction of a frame: bit 3 of octet 0, which is `packetType` (spec/41_encoder.md R111). -/
def frameDir : List Byte → Option Dir
  | h0 :: _ => some (if h0.getLsbD 3 then .tc else .tm)
  | [] => none

/-- The sequence count of a frame: the low 14 bits of the second header word (spec/30_encoding.md R63,
spec/20_memory.md R48). BUILD emits no frame without that word (R108); such a list reads as 0. -/
def frameCount : List Byte → Count
  | _ :: _ :: h2 :: h3 :: _ => (h2 ++ h3).setWidth 14
  | _ => 0

/-- The frame a trace entry shows, if it is one of direction `d`. Only BUILD shows frames (R75). -/
def Shown.frameOf (d : Dir) : Shown → Option (List Byte)
  | .response (.ok (.frame f)) => if frameDir f = some d then some f else none
  | _ => none

/-- The frames of one direction in a trace, newest first. -/
def framesOf (d : Dir) (trace : List Shown) : List (List Byte) := trace.filterMap (Shown.frameOf d)

/-- The sequence counts of the frames of one direction, newest first. -/
def countsOf (d : Dir) (trace : List Shown) : List Count := (framesOf d trace).map frameCount

/-- The part of a trace after the last reset event. -/
def sinceReset (trace : List Shown) : List Shown := trace.takeWhile (· ≠ .wasReset)

/-- The counts of the first `n` frames of a direction, newest first: `n` mod 16384 down to 1 (spec/40_sequence_counter.md R93). -/
def expectedCounts : Nat → List Count
  | 0 => []
  | n + 1 => BitVec.ofNat 14 ((n + 1) % 16384) :: expectedCounts n

/-- `SEQ[d]` holds the count of the last frame shown for `d` since reset, or 0 if none was (spec/10_state.md R35). -/
def CountersHoldLastCount (s : State) : Prop :=
  ∀ d, s.seq d = (countsOf d (sinceReset s.trace)).head?.getD 0

/-- The frames shown for `d` since reset carry the counts 1, 2, 3, … mod 16384 in order (R93), and
`SEQ[d]` is their number mod 16384 (spec/10_state.md R34). -/
def CountsFollowBuilds (s : State) : Prop :=
  ∀ d, countsOf d (sinceReset s.trace) = expectedCounts (countsOf d (sinceReset s.trace)).length ∧
    (s.seq d).toNat = (countsOf d (sinceReset s.trace)).length % 16384

/-- The move is a BUILD of direction `d`. -/
def HostMove.buildsIn (d : Dir) : HostMove → Bool
  | .operation r =>
    match decode r with
    | .build d' _ _ => decide (d' = d)
    | .parse _ => false
    | .pack _ => false
    | .unpack _ => false
  | .reset => false

end Sys2Proof.Machine

namespace Sys2Proof

/-- The operation writes no counter whatever the state: PARSE, PACK, UNPACK, and a BUILD whose payload
is refused (spec/20_memory.md R51 (b) and (c)). -/
def Instr.leavesCounters : Instr → Bool
  | .build _ _ pin => decide (Machine.payloadRefused pin)
  | .parse _ => true
  | .pack _ => true
  | .unpack _ => true

end Sys2Proof
end

