-- ==== Sys2Proof/WellFormed.lean ====
section
/-! DEFINITION. Well-formed operations. Field widths are the operands' types, and no field value and
no operation code is illegal (spec/30_encoding.md R78, R79), so the one check left is that a buffer
fits `BUF_MAX` (spec/00_scope.md R9, spec/93_implementation_defined.md U6). -/

namespace Sys2Proof

/-- A buffer fits a bound; `none` is unbounded (R9). -/
def bufferFits (bound : Option Nat) (buffer : List Byte) : Bool :=
  match bound with
  | none => true
  | some m => decide (buffer.length ≤ m)

/-- The buffers an operation presents fit the bound. -/
def Instr.fitsWithin (bound : Option Nat) : Instr → Bool
  | .build _ _ pin => bufferFits bound pin
  | .parse bin => bufferFits bound bin
  | .pack _ => true
  | .unpack _ => true

/-- An operation is well formed when the bound is one R9 allows and its buffers fit it. -/
def Instr.wellFormedWithin (bound : Option Nat) (i : Instr) : Bool :=
  Config.legalBufMax bound && i.fitsWithin bound

/-- Well-formed under the `BUF_MAX` of this model. -/
def Instr.wellFormed (i : Instr) : Bool := i.wellFormedWithin Config.bufMax

end Sys2Proof
end

