-- ==== Sys2Proof/Certificates/Slice0/Obligations.lean ====
section
/-! DEFINITION. The statements for the provers. Each docstring names the rule of spec/ it formalises. -/

open Sys2Proof Sys2Proof.Machine

/-! ### Command records -/

/-- Records written out bit by bit decode to the operations they stand for: select code in bits 1 to 0
(R73), operands as log entry 3 lays them out (the model's choice). -/
def Obligations.WrittenOutRecordsDecode : Prop :=
  decode ⟨0b00000000000000000000000000000000000010000000010100, [0x50]⟩ = .build .tc 0x402 [0x50] ∧
  decode ⟨0b00000000000000000000000000000000000011111111111000, []⟩ = .build .tm 0x7FF [] ∧
  decode ⟨0b00000000000000000000000000000000000000000000000001, [0xAA, 0xBB]⟩ = .parse [0xAA, 0xBB] ∧
  decode ⟨0b10110010101010100101010101010101000100100011010010, []⟩
    = .pack ⟨5, 1, 0, 0x2AA, 1, 0x1555, 0x1234⟩ ∧
  decode ⟨0b00001000000000011100000000000001000000000000001111, []⟩ = .unpack 0x0801C0010003

/-- Decoding the record, or the octets, that present an operation gives the operation back, with every
operand at every value (R73, R74; the layout is the model's choice, log entries 3 and 9). -/
def Obligations.DecodeEncodeRoundTrip : Prop :=
  ∀ i : Instr, decode (encode i) = i ∧ decodeOctets (encodeOctets i) = .ok i

/-- A string of octets is refused exactly when it is shorter than a control word or sets a bit above
bit 49 (the model's choice, log entry 9). -/
def Obligations.OctetsRefusedExactlyWhen : Prop :=
  (∀ bs, decodeOctets bs = .error .controlTooShort ↔ bs.length < 7) ∧
  (∀ bs, decodeOctets bs = .error .controlTooWide ↔ ∃ b6, bs[6]? = some b6 ∧ 4 ≤ b6.toNat) ∧
  (∀ bs, (∃ i, decodeOctets bs = .ok i) ↔ ∃ b6, bs[6]? = some b6 ∧ b6.toNat < 4)

/-- R78, derived: the select code of every record is that of the operation it decodes to, each of the four
values is some operation, and a step that takes the record answers a next state. That the code stands at bits
1 to 0 of the control word is the model's choice (log entry 3), and so is that a record runs whatever stands in
bits and in a buffer its operation does not take (log entry 4). -/
def Obligations.EverySelectCodeIsAssigned : Prop :=
  (∀ r : Record, (decode r).opCode = r.control.extractLsb' 0 2) ∧
  (∀ op : BitVec 2, ∃ i : Instr, i.opCode = op) ∧
  (∀ s r rest, s.requests = .operation r :: rest → ∃ t, step s = .next t)

/-- A table word the decoder reads as `i` makes the very next step `exec i` (log entry 6). -/
def Obligations.PresentedTableWordRuns : Prop :=
  ∀ (s : State) (nbits w : Nat) (i : Instr), decodeTableWord nbits w = some i →
    step (s.withFetchWord nbits w) = exec i s

/-! ### One step -/

/-- A step that takes an operation is `exec` of the operation its record decodes to, at the state with
that one move taken (R50, R51, R163). -/
def Obligations.StepRunsDecodedOperation : Prop :=
  ∀ s r rest i, s.requests = .operation r :: rest → decode r = i → i.wellFormed = true →
    step s = exec i { s with requests := rest }

/-- With no move presented a step changes nothing (the model's choice, log entry 5). -/
def Obligations.IdleStepChangesNothing : Prop :=
  ∀ s, s.requests = [] → step s = .next s

/-- R170: a reset event sets both counters to 0 and takes nothing but its own move, and a counter that
becomes 0 otherwise does so by the wrap of a successful BUILD. -/
def Obligations.ResetClearsBothCounters : Prop :=
  (∀ s rest, s.requests = .reset :: rest →
    ∃ t, step s = .next t ∧ t.seq .tm = 0 ∧ t.seq .tc = 0 ∧ t.requests = rest) ∧
  (∀ s t d, step s = .next t → s.seq d ≠ 0 → t.seq d = 0 →
    (∃ rest, s.requests = .reset :: rest) ∨
    (∃ r rest a pin, s.requests = .operation r :: rest ∧ decode r = .build d a pin ∧ s.seq d = 16383))

/-- R33: after reset both counters hold 0. -/
def Obligations.ResetStateHoldsZero : Prop :=
  State.reset.codec = ⟨0, 0⟩ ∧ ∀ d, State.reset.seq d = 0

/-- R24: each counter starts at 0, and its only writers are a successful BUILD of its direction, which stores
the successor, and the reset event, which stores 0. -/
def Obligations.OnlyBuildAndResetWriteCounters : Prop :=
  (∀ d, State.reset.seq d = 0) ∧
  (∀ s t d, step s = .next t → t.seq d ≠ s.seq d →
    (∃ rest, s.requests = .reset :: rest ∧ t.seq d = 0) ∨
    (∃ r rest a pin, s.requests = .operation r :: rest ∧ decode r = .build d a pin ∧
      1 ≤ pin.length ∧ pin.length ≤ 65536 ∧ (t.seq d).toNat = ((s.seq d).toNat + 1) % 16384))

/-! ### The counters -/

/-- R90: `next` adds 1 mod 16384, is the low 14 bits of the 15-bit sum, and is a bijection. -/
def Obligations.NextCountIsSuccessor : Prop :=
  (∀ c, (nextCount c).toNat = (c.toNat + 1) % 16384) ∧
  (∀ c, c.toNat ≤ 16382 → (nextCount c).toNat = c.toNat + 1) ∧
  nextCount 16383 = 0 ∧
  (∀ c, nextCount c = (c.setWidth 15 + 1).setWidth 14) ∧
  Function.Bijective nextCount

/-- R92: `n` applications of `next` add `n` mod 16384, and the period is exactly 16384. -/
def Obligations.NextCountHasPeriod16384 : Prop :=
  (∀ n c, (nextCount^[n] c).toNat = (c.toNat + n) % 16384) ∧
  (∀ c, nextCount^[16384] c = c) ∧
  (∀ n c, 0 < n → n < 16384 → nextCount^[n] c ≠ c)

/-- R23: no operation writes both counters, and an operation that writes one does not read the other: the
other counter may hold anything and stays as it is. -/
def Obligations.CountersAreIndependent : Prop :=
  (∀ i s t, exec i s = .next t → t.seq .tm = s.seq .tm ∨ t.seq .tc = s.seq .tc) ∧
  (∀ d a pin s v, ∃ t, exec (.build d a pin) s = .next t ∧
    exec (.build d a pin) (s.setSeq d.other v) = .next (t.setSeq d.other v)) ∧
  (∀ d i s v, i.opCode ≠ 0#2 → ∃ t, exec i s = .next t ∧ exec i (s.setSeq d v) = .next (t.setSeq d v))

/-! ### Frames -/

/-- What an operation leaves unchanged: the moves not yet taken, everything shown before, both counters of
PARSE, PACK and UNPACK, and of BUILD the counter of the other direction always and its own when the
payload is refused. (The two ports are the model's fields, log entries 1 and 2.) -/
def Obligations.OperationFrame : Prop :=
  ∀ i s t, exec i s = .next t →
    t.requests = s.requests ∧ (∃ r, t.trace = .response r :: s.trace) ∧
    match i with
    | .build d _ pin =>
      t.seq d.other = s.seq d.other ∧ ((pin.length = 0 ∨ 65536 < pin.length) → t.seq d = s.seq d)
    | .parse _ => t.codec = s.codec
    | .pack _ => t.codec = s.codec
    | .unpack _ => t.codec = s.codec

/-- R30: what an operation answers and what it leaves in the counters depend on nothing of an earlier
operation but the counters. -/
def Obligations.NothingElseCarriesOver : Prop :=
  ∀ i s₁ s₂, s₁.codec = s₂.codec →
    ∃ t₁ t₂ r, exec i s₁ = .next t₁ ∧ exec i s₂ = .next t₂ ∧ t₁.codec = t₂.codec ∧
      t₁.trace = .response r :: s₁.trace ∧ t₂.trace = .response r :: s₂.trace

/-- R131, and the same of PACK and UNPACK: the response depends on the operands alone, whatever the state. -/
def Obligations.DecoderAndPackerIgnoreState : Prop :=
  ∀ i : Instr, i.opCode ≠ 0#2 → ∃ r, ∀ s, exec i s = .next { s with trace := .response r :: s.trace }

/-! ### The memory primitives and the views of a header -/

/-- R43: MemRead is big-endian, MemWrite stores the high octet at its offset and the low octet after it and
touches no other octet, and a read gives back what was written. -/
def Obligations.MemoryPrimitivesAreBigEndian : Prop :=
  (∀ b off (h : off + 2 ≤ b.length), (memRead b off h).toNat = b[off].toNat * 256 + b[off + 1].toNat) ∧
  (∀ b off v, off + 2 ≤ b.length →
    (memWrite b off v)[off]? = some (v.extractLsb' 8 8) ∧
    (memWrite b off v)[off + 1]? = some (v.extractLsb' 0 8)) ∧
  (∀ b off v k, k ≠ off → k ≠ off + 1 → (memWrite b off v)[k]? = b[k]?) ∧
  (∀ b off v (h : off + 2 ≤ (memWrite b off v).length), memRead (memWrite b off v) off h = v)

/-- R44: octets, words and the 48-bit value are three views of one header. -/
def Obligations.HeaderViewsAgree : Prop :=
  (∀ h0 h1 h2 h3 h4 h5,
    octetsOfHeader (headerOfOctets h0 h1 h2 h3 h4 h5) = [h0, h1, h2, h3, h4, h5] ∧
    (packetIdWord (headerOfOctets h0 h1 h2 h3 h4 h5)).toNat = h0.toNat * 256 + h1.toNat ∧
    (sequenceWordWord (headerOfOctets h0 h1 h2 h3 h4 h5)).toNat = h2.toNat * 256 + h3.toNat ∧
    (dataLengthWord (headerOfOctets h0 h1 h2 h3 h4 h5)).toNat = h4.toNat * 256 + h5.toNat) ∧
  (∀ h, headerOfWords (packetIdWord h) (sequenceWordWord h) (dataLengthWord h) = h) ∧
  (∀ h, packetIdWord h = h.extractLsb' 32 16 ∧ sequenceWordWord h = h.extractLsb' 16 16 ∧
    dataLengthWord h = h.extractLsb' 0 16)

/-! ### PACK and UNPACK -/

/-- R101: PACK always completes, changes nothing, and answers the header the table gives bit by bit. -/
def Obligations.PackAnswersHeaderBits : Prop :=
  ∀ (f : HeaderFields) (s : State), ∃ h : Header,
    exec (.pack f) s = .next { s with trace := .response (.ok (.header h)) :: s.trace } ∧
    h.extractLsb' 45 3 = f.version ∧ h.getLsbD 44 = false ∧ h.extractLsb' 43 1 = f.packetType ∧
    h.extractLsb' 42 1 = (f.secondaryHeaderFlag ||| f.apid.extractLsb' 10 1) ∧
    h.extractLsb' 32 10 = f.apid.extractLsb' 0 10 ∧ h.extractLsb' 30 2 = f.sequenceFlags ∧
    h.extractLsb' 16 14 = f.sequenceCount ∧ h.extractLsb' 0 16 = f.dataLength

/-- R121: UNPACK always completes, changes nothing, and answers the fields the table gives; `H[44]` feeds no
field and `H[42]` feeds two. -/
def Obligations.UnpackAnswersFieldBits : Prop :=
  ∀ (h : Header) (s : State),
    (∃ f : HeaderFields, exec (.unpack h) s = .next { s with trace := .response (.ok (.fields f)) :: s.trace } ∧
      f.version = h.extractLsb' 45 3 ∧ f.packetType = h.extractLsb' 43 1 ∧
      f.secondaryHeaderFlag = h.extractLsb' 42 1 ∧ f.apid = h.extractLsb' 32 11 ∧
      f.sequenceFlags = h.extractLsb' 30 2 ∧ f.sequenceCount = h.extractLsb' 16 14 ∧
      f.dataLength = h.extractLsb' 0 16 ∧ (f.secondaryHeaderFlag = 1 ↔ 1024 ≤ f.apid.toNat)) ∧
    exec (.unpack (h ^^^ (1#48 <<< 44))) s = exec (.unpack h) s

/-- R122: what UNPACK of a packed header returns, and when it is the fields that were packed. -/
def Obligations.UnpackAfterPack : Prop :=
  ∀ f : HeaderFields,
    unpackHeader (packHeader f) =
      { f with
        secondaryHeaderFlag := f.secondaryHeaderFlag ||| f.apid.extractLsb' 10 1
        apid := f.apid ||| (f.secondaryHeaderFlag.setWidth 11 <<< 10) } ∧
    (unpackHeader (packHeader f) = f ↔ f.secondaryHeaderFlag = f.apid.extractLsb' 10 1) ∧
    (f.secondaryHeaderFlag = 0 → f.apid.toNat < 1024 → unpackHeader (packHeader f) = f)

/-- R123: PACK of an unpacked header clears bit 44 and changes nothing else. -/
def Obligations.PackAfterUnpack : Prop :=
  (∀ h : Header, packHeader (unpackHeader h) = h &&& ~~~(1#48 <<< 44)) ∧
  (∀ h : Header, packHeader (unpackHeader h) = h ↔ h.getLsbD 44 = false) ∧
  (∀ f : HeaderFields, (packHeader f).getLsbD 44 = false)

/-- R102: PACK is not injective on the shared bit, and its extreme values. -/
def Obligations.PackCornerCases : Prop :=
  (∀ (f : HeaderFields) (s : State), f.apid.toNat < 1024 →
    exec (.pack { f with secondaryHeaderFlag := 1 }) s
      = exec (.pack { f with secondaryHeaderFlag := 0, apid := f.apid + 1024 }) s ∧
    exec (.pack { f with secondaryHeaderFlag := 1 }) s
      = exec (.pack { f with secondaryHeaderFlag := 1, apid := f.apid + 1024 }) s) ∧
  octetsOfHeader (packHeader ⟨0, 0, 1, 0, 3, 2, 0⟩) = [0x04, 0x00, 0xC0, 0x02, 0x00, 0x00] ∧
  octetsOfHeader (packHeader ⟨0, 0, 0, 1024, 3, 2, 0⟩) = [0x04, 0x00, 0xC0, 0x02, 0x00, 0x00] ∧
  octetsOfHeader (packHeader ⟨0, 0, 0, 0, 0, 0, 0⟩) = [0x00, 0x00, 0x00, 0x00, 0x00, 0x00] ∧
  octetsOfHeader (packHeader ⟨7, 1, 1, 2047, 3, 16383, 65535⟩) = [0xEF, 0xFF, 0xFF, 0xFF, 0xFF, 0xFF] ∧
  (∀ (f : HeaderFields) (l : BitVec 16), (packHeader { f with dataLength := l }).extractLsb' 0 16 = l)

/-- R66: `packetId` bit 10 is the flag or `apid[10]` when packed and both when unpacked, with the three
consequences (a), (b) and (c) the rule lists. -/
def Obligations.FlagAndApidShareABit : Prop :=
  (∀ f : HeaderFields, (packHeader f).extractLsb' 42 1 = (f.secondaryHeaderFlag ||| f.apid.extractLsb' 10 1)) ∧
  (∀ h : Header, (unpackHeader h).secondaryHeaderFlag = h.extractLsb' 42 1 ∧
    (unpackHeader h).apid.extractLsb' 10 1 = h.extractLsb' 42 1) ∧
  (∀ d a pin s, 1 ≤ pin.length → pin.length ≤ 65536 →
    ∃ t u frame p, exec (.build d a pin) s = .next t ∧ t.trace = .response (.ok (.frame frame)) :: s.trace ∧
      exec (.parse frame) t = .next u ∧ u.trace = .response (.ok (.packet p)) :: t.trace ∧
      p.header.apid = a ∧ (1024 ≤ a.toNat → p.header.secondaryHeaderFlag = 1)) ∧
  (∀ f : HeaderFields, f.secondaryHeaderFlag = 1 → f.apid.toNat < 1024 →
    (unpackHeader (packHeader f)).apid = f.apid + 1024)

/-- R67: `packetId` bit 12 is always written 0 and never read. -/
def Obligations.UnassignedBitIsIgnored : Prop :=
  (∀ f : HeaderFields, (packHeader f).getLsbD 44 = false) ∧
  (∀ d a pin s t h0 rest, exec (.build d a pin) s = .next t →
    t.trace = .response (.ok (.frame (h0 :: rest))) :: s.trace → h0.getLsbD 4 = false) ∧
  (∀ (h : Header) (s : State), exec (.unpack (h ^^^ (1#48 <<< 44))) s = exec (.unpack h) s) ∧
  (∀ (h0 : Byte) (rest : List Byte) (s : State),
    exec (.parse ((h0 ^^^ 0x10) :: rest)) s = exec (.parse (h0 :: rest)) s)

/-! ### BUILD -/

/-- R114: on an accepted payload BUILD completes: it stores the successor in the counter of its direction,
and answers the packed header's octets followed by the payload. -/
def Obligations.BuildCompletes : Prop :=
  ∀ d a pin s, 1 ≤ pin.length → pin.length ≤ 65536 →
    ∃ t, exec (.build d a pin) s = .next t ∧
      t.seq d = nextCount (s.seq d) ∧ t.seq d.other = s.seq d.other ∧ t.requests = s.requests ∧
      t.trace = .response (.ok (.frame (octetsOfHeader (packHeader
        ⟨0, d.bit, 0, a, 0b11, nextCount (s.seq d), BitVec.ofNat 16 (pin.length - 1)⟩) ++ pin))) :: s.trace

/-- R107 and R108: the octets of a frame as numbers: direction and APID, Unsegmented and the new count, one
less than the payload's length, then the payload and nothing after it. -/
def Obligations.BuildFrameOctets : Prop :=
  ∀ d (a : Apid) pin s, 1 ≤ pin.length → pin.length ≤ 65536 →
    ∃ t h0 h1 h2 h3 h4 h5, exec (.build d a pin) s = .next t ∧
      t.trace = .response (.ok (.frame (h0 :: h1 :: h2 :: h3 :: h4 :: h5 :: pin))) :: s.trace ∧
      h0.toNat = 8 * d.bit.toNat + a.toNat / 256 ∧ h1.toNat = a.toNat % 256 ∧
      h2.toNat = 192 + ((s.seq d).toNat + 1) % 16384 / 256 ∧
      h3.toNat = ((s.seq d).toNat + 1) % 256 ∧
      256 * h4.toNat + h5.toNat = pin.length - 1 ∧
      (h0 :: h1 :: h2 :: h3 :: h4 :: h5 :: pin).length = 6 + pin.length

/-- R141: BUILD answers InvalidPayload exactly on an empty payload or one longer than 65536 octets, and then
nothing is written. -/
def Obligations.BuildRefusesBadPayload : Prop :=
  (∀ d a (pin : List Byte) s, pin.length = 0 ∨ 65536 < pin.length →
    exec (.build d a pin) s = .next { s with trace := .response (.failed .invalidPayload) :: s.trace }) ∧
  (∀ d a (pin : List Byte) s t, exec (.build d a pin) s = .next t →
    t.trace = .response (.failed .invalidPayload) :: s.trace → pin.length = 0 ∨ 65536 < pin.length)

/-- R111: two BUILDs that differ only in direction and meet equal counters answer frames that differ only in
bit 3 of octet 0, and each advances its own counter. -/
def Obligations.DirectionIsOneBit : Prop :=
  ∀ a pin s s', 1 ≤ pin.length → pin.length ≤ 65536 → s.seq .tm = s'.seq .tc →
    ∃ t t' h0 rest, exec (.build .tm a pin) s = .next t ∧ exec (.build .tc a pin) s' = .next t' ∧
      t.trace = .response (.ok (.frame (h0 :: rest))) :: s.trace ∧
      t'.trace = .response (.ok (.frame ((h0 ||| 0x08) :: rest))) :: s'.trace ∧
      h0.toNat ≤ 0x07 ∧ 0x08 ≤ (h0 ||| 0x08).toNat ∧ (h0 ||| 0x08).toNat ≤ 0x0F ∧
      t.seq .tm = nextCount (s.seq .tm) ∧ t.seq .tc = s.seq .tc ∧
      t'.seq .tc = nextCount (s'.seq .tc) ∧ t'.seq .tm = s'.seq .tm

/-- R80: the first word of a built frame lies in the range of its direction and the top two bits of the
second are 11; PACK can answer every header with bit 44 clear and no other. -/
def Obligations.HeaderValuesEmitted : Prop :=
  (∀ d a pin s, 1 ≤ pin.length → pin.length ≤ 65536 →
    ∃ t h0 h1 h2 rest, exec (.build d a pin) s = .next t ∧
      t.trace = .response (.ok (.frame (h0 :: h1 :: h2 :: rest))) :: s.trace ∧
      (d = .tm → h0.toNat * 256 + h1.toNat ≤ 0x07FF) ∧
      (d = .tc → 0x0800 ≤ h0.toNat * 256 + h1.toNat ∧ h0.toNat * 256 + h1.toNat ≤ 0x0FFF) ∧
      h2.extractLsb' 6 2 = 0b11) ∧
  (∀ h : Header, (∃ f, packHeader f = h) ↔ h.getLsbD 44 = false)

/-- The byte-exact example of the spec (S1, R105): BUILD TC, APID 1, "PING" from reset. -/
def Obligations.PingExample : Prop :=
  exec (.build .tc 0x001 [0x50, 0x49, 0x4E, 0x47]) State.reset = .next
    { State.reset with
      codec := ⟨0, 1⟩
      trace := [.response (.ok (.frame [0x08, 0x01, 0xC0, 0x01, 0x00, 0x03, 0x50, 0x49, 0x4E, 0x47]))] }

/-! ### PARSE -/

/-- R134: PARSE of a buffer that holds its declared payload completes, changes nothing, and answers UNPACK of
the first six octets with the slice as payload. -/
def Obligations.ParseCompletes : Prop :=
  ∀ (h0 h1 h2 h3 h4 h5 : Byte) (rest : List Byte) (s : State),
    h4.toNat * 256 + h5.toNat + 1 ≤ rest.length →
    exec (.parse (h0 :: h1 :: h2 :: h3 :: h4 :: h5 :: rest)) s = .next
      { s with
        trace := .response (.ok (.packet
          ⟨unpackHeader (headerOfOctets h0 h1 h2 h3 h4 h5), rest.take (h4.toNat * 256 + h5.toNat + 1)⟩))
            :: s.trace }

/-- R132: the outcome of PARSE by the length of its buffer, row by row. -/
def Obligations.ParseOutcomeByLength : Prop :=
  ∀ (bin : List Byte) (s : State),
    (bin.length ≤ 5 → exec (.parse bin) s = .next { s with trace := .response (.failed .headerTooShort) :: s.trace }) ∧
    (bin.length = 6 → exec (.parse bin) s = .next { s with trace := .response (.failed .truncatedPayload) :: s.trace }) ∧
    (∀ b4 b5, bin[4]? = some b4 → bin[5]? = some b5 →
      (7 ≤ bin.length → bin.length ≤ 6 + (b4.toNat * 256 + b5.toNat) →
        exec (.parse bin) s = .next { s with trace := .response (.failed .truncatedPayload) :: s.trace }) ∧
      (bin.length = 7 + (b4.toNat * 256 + b5.toNat) → ∃ f,
        exec (.parse bin) s = .next { s with trace := .response (.ok (.packet ⟨f, bin.drop 6⟩)) :: s.trace }) ∧
      (7 + (b4.toNat * 256 + b5.toNat) < bin.length → ∃ f,
        exec (.parse bin) s = .next
          { s with
            trace := .response (.ok (.packet ⟨f, (bin.drop 6).take (b4.toNat * 256 + b5.toNat + 1)⟩)) :: s.trace }))

/-- R77: in every record PARSE returns the header is that of the first six octets, and the payload is the
`dataLength` + 1 octets after it, between 1 and 65536. -/
def Obligations.ParsedPacketShape : Prop :=
  ∀ bin s t p, exec (.parse bin) s = .next t → t.trace = .response (.ok (.packet p)) :: s.trace →
    p.payload.length = p.header.dataLength.toNat + 1 ∧ 1 ≤ p.payload.length ∧ p.payload.length ≤ 65536 ∧
    (∀ k, k < p.payload.length → p.payload[k]? = bin[6 + k]?) ∧
    ∃ h0 h1 h2 h3 h4 h5 rest, bin = h0 :: h1 :: h2 :: h3 :: h4 :: h5 :: rest ∧
      p.header = unpackHeader (headerOfOctets h0 h1 h2 h3 h4 h5)

/-- R128: octets after the declared payload change nothing. -/
def Obligations.OctetsAfterPayloadIgnored : Prop :=
  ∀ bin extra s p, exec (.parse bin) s = .next { s with trace := .response (.ok (.packet p)) :: s.trace } →
    exec (.parse (bin ++ extra)) s = .next { s with trace := .response (.ok (.packet p)) :: s.trace }

/-- R133: PARSE of a frame BUILD answered gives back what was built. -/
def Obligations.ParseAfterBuild : Prop :=
  ∀ d a pin s, 1 ≤ pin.length → pin.length ≤ 65536 →
    ∃ t u frame p, exec (.build d a pin) s = .next t ∧
      t.trace = .response (.ok (.frame frame)) :: s.trace ∧
      exec (.parse frame) t = .next u ∧ u.trace = .response (.ok (.packet p)) :: t.trace ∧
      u.codec = t.codec ∧ p.payload = pin ∧ p.header.version = 0 ∧ p.header.packetType = d.bit ∧
      p.header.secondaryHeaderFlag = a.extractLsb' 10 1 ∧ p.header.apid = a ∧
      p.header.sequenceFlags = 0b11 ∧ p.header.sequenceCount = t.seq d ∧
      t.seq d = nextCount (s.seq d) ∧ p.header.dataLength.toNat = pin.length - 1 ∧
      frame.length = 7 + p.header.dataLength.toNat

/-! ### Failures -/

/-- R140: exactly when an operation fails, with which failure and which code; PACK and UNPACK never do. -/
def Obligations.FailuresExactlyWhen : Prop :=
  ∀ i s t r, exec i s = .next t → t.trace = .response r :: s.trace →
    (r = .failed .invalidPayload ↔ ∃ d a pin, i = .build d a pin ∧ (pin.length = 0 ∨ 65536 < pin.length)) ∧
    (r = .failed .headerTooShort ↔ ∃ bin, i = .parse bin ∧ bin.length < 6) ∧
    (r = .failed .truncatedPayload ↔ ∃ bin b4 b5, i = .parse bin ∧ bin[4]? = some b4 ∧ bin[5]? = some b5 ∧
      6 ≤ bin.length ∧ bin.length < 6 + (b4.toNat * 256 + b5.toNat) + 1) ∧
    (r.statusCode = 0 ↔ ∃ v, r = .ok v) ∧ (r.statusCode = 1 ↔ r = .failed .invalidPayload) ∧
    (r.statusCode = 2 ↔ r = .failed .headerTooShort) ∧ (r.statusCode = 3 ↔ r = .failed .truncatedPayload)

/-- R146: a failed operation leaves the state as it was but for the response shown; issued again it fails
in the same way. -/
def Obligations.FailureWritesNoState : Prop :=
  ∀ i s t x, exec i s = .next t → t.trace = .response (.failed x) :: s.trace →
    t = { s with trace := .response (.failed x) :: s.trace } ∧
    exec i t = .next { t with trace := .response (.failed x) :: t.trace }

/-! ### Runs -/

/-- R183, R162, derived: every step answers a next state, so a list of moves is taken to its end, one trace
entry a move. Two things in it are the model's choice: the idle step, which is one of the steps of `Safe` (log
entry 5), and the entry a reset event adds to the trace, which is a mark, since by R162 it gives back nothing
(log entry 2). -/
def Obligations.EveryOperationCompletes : Prop :=
  (∀ s, Safe s) ∧
  (∀ moves s, ∃ t, runMoves moves s = .next t ∧ t.requests = [] ∧
    t.trace.length = s.trace.length + moves.length)

/-- R35, derived: each counter holds the count of the last frame of its direction since reset, or 0: every step keeps it.
`sinceReset` cuts the trace at the mark of a reset event, the model's choice (log entry 2). -/
def Obligations.CountersHoldLastCountKept : Prop :=
  ∀ s t, CountersHoldLastCount s → step s = .next t → CountersHoldLastCount t

/-- R34 and R93, derived: the `k`-th frame of a direction since reset carries `k` mod 16384, and the counter holds the
number of those frames mod 16384: every step keeps it. `sinceReset` cuts the trace at the mark of a reset event,
the model's choice (log entry 2). -/
def Obligations.CountsFollowBuildsKept : Prop :=
  ∀ s t, CountsFollowBuilds s → step s = .next t → CountsFollowBuilds t

/-- Both invariants hold at reset (R33; nothing has been shown, log entry 2). -/
def Obligations.CountersMatchTraceAtReset : Prop :=
  CountersHoldLastCount State.reset ∧ CountsFollowBuilds State.reset

/-- R94, R52 and R182, derived: in a state that meets the invariant each count is `next` of the one before
it, and two counts of a direction are equal exactly when their builds lie a multiple of 16384 apart. `sinceReset` cuts the trace at the mark of a
reset event, the model's choice (log entry 2). -/
def Obligations.CountsRepeatEvery16384 : Prop :=
  ∀ s, CountsFollowBuilds s → ∀ d,
    (∀ k, k + 1 < (countsOf d (sinceReset s.trace)).length →
      (countsOf d (sinceReset s.trace))[k]? = ((countsOf d (sinceReset s.trace))[k + 1]?).map nextCount) ∧
    (∀ j k, j < k → k < (countsOf d (sinceReset s.trace)).length →
      ((countsOf d (sinceReset s.trace))[j]? = (countsOf d (sinceReset s.trace))[k]? ↔ (k - j) % 16384 = 0))

/-- R95: whatever the host interleaves, the frames of a direction, and so their counts, are the same with the
builds of the other direction left out. -/
def Obligations.DirectionsDoNotInterfere : Prop :=
  ∀ d moves s, ∃ t u, runMoves moves s = .next t ∧
    runMoves (moves.filter (fun m => !(m.buildsIn d.other))) s = .next u ∧
    framesOf d t.trace = framesOf d u.trace ∧ countsOf d t.trace = countsOf d u.trace ∧ t.seq d = u.seq d

/-- R130 and R110, derived: a PARSE, PACK, UNPACK or refused BUILD, placed anywhere in a run, adds its own response, which
is no frame, and changes nothing else: not the counters, and no other response. Derived: its place is counted
in trace entries, and that a reset event among the moves adds one is the model's choice (log entry 2). -/
def Obligations.PureOperationsInsertAnywhere : Prop :=
  ∀ before after r s, (decode r).leavesCounters = true →
    ∃ t u new old x, runMoves (before ++ .operation r :: after) s = .next t ∧
      runMoves (before ++ after) s = .next u ∧ t.codec = u.codec ∧
      u.trace = new ++ old ∧ t.trace = new ++ .response x :: old ∧
      new.length = after.length ∧ old.length = s.trace.length + before.length ∧
      (∀ f, x ≠ .ok (.frame f))

/-- R173, derived: after a reset event everything goes as from the state after the first reset, and the first
successful BUILD of a direction after it answers count 1. The mark `wasReset` that the event leaves in the trace
is the model's choice (log entry 2). -/
def Obligations.ResetForgetsHistory : Prop :=
  (∀ moves s, ∃ t u, runMoves (.reset :: moves) s = .next t ∧ runMoves moves State.reset = .next u ∧
    t.codec = u.codec ∧ t.trace = u.trace ++ .wasReset :: s.trace) ∧
  (∀ d a pin r mid s, decode r = .build d a pin → 1 ≤ pin.length → pin.length ≤ 65536 →
    (∀ m ∈ mid, m ≠ .reset ∧ (m.buildsIn d = true →
      ∃ r' a' pin', m = .operation r' ∧ decode r' = .build d a' pin' ∧ payloadRefused pin')) →
    ∃ t frame rest, runMoves (.reset :: mid ++ [.operation r]) s = .next t ∧
      t.trace = .response (.ok (.frame frame)) :: rest ∧ frameCount frame = 1)
end

