-- ==== Sys2Proof/Laws/State.lean ====
section
/-! SUPPORT. One lemma per field per update of State. -/

namespace Sys2Proof.Machine

/-- Two states with equal fields, the counters read one by one, are equal. -/
theorem State.ext_fields {s t : State} (tm : s.seq .tm = t.seq .tm) (tc : s.seq .tc = t.seq .tc)
    (requests : s.requests = t.requests) (trace : s.trace = t.trace) : s = t := by
  obtain ⟨⟨_, _⟩, _, _⟩ := s
  obtain ⟨⟨_, _⟩, _, _⟩ := t
  simp only [State.seq] at tm tc
  simp_all

@[simp] theorem State.setSeq_requests (s : State) (d : Dir) (v : Count) : (s.setSeq d v).requests = s.requests := by
  cases d <;> rfl
@[simp] theorem State.setSeq_trace (s : State) (d : Dir) (v : Count) : (s.setSeq d v).trace = s.trace := by
  cases d <;> rfl
@[simp] theorem State.setSeq_seq (s : State) (d : Dir) (v : Count) : (s.setSeq d v).seq d = v := by
  cases d <;> rfl
theorem State.setSeq_seq_of_ne (s : State) {d d' : Dir} (v : Count) (ne : d' ≠ d) :
    (s.setSeq d v).seq d' = s.seq d' := by
  cases d <;> cases d' <;> first | rfl | exact absurd rfl ne
@[simp] theorem State.setSeq_seq_other (s : State) (d : Dir) (v : Count) :
    (s.setSeq d v).seq d.other = s.seq d.other := by cases d <;> rfl
@[simp] theorem State.setSeq_self (s : State) (d : Dir) : s.setSeq d (s.seq d) = s := by cases d <;> rfl

@[simp] theorem State.respond_codec (s : State) (r : Response) : (s.respond r).codec = s.codec := rfl
@[simp] theorem State.respond_requests (s : State) (r : Response) : (s.respond r).requests = s.requests := rfl
@[simp] theorem State.respond_trace (s : State) (r : Response) :
    (s.respond r).trace = .response r :: s.trace := rfl
@[simp] theorem State.respond_seq (s : State) (r : Response) (d : Dir) : (s.respond r).seq d = s.seq d := by
  cases d <;> rfl

@[simp] theorem State.resetEvent_requests (s : State) : s.resetEvent.requests = s.requests := rfl
@[simp] theorem State.resetEvent_trace (s : State) : s.resetEvent.trace = .wasReset :: s.trace := rfl
@[simp] theorem State.resetEvent_codec (s : State) : s.resetEvent.codec = ⟨0, 0⟩ := rfl
@[simp] theorem State.resetEvent_seq (s : State) (d : Dir) : s.resetEvent.seq d = 0 := by cases d <;> rfl

/-- Reading a counter sees only the counters. -/
@[simp] theorem State.mk_seq (s : State) (q : List HostMove) (tr : List Shown) (d : Dir) :
    State.seq ⟨s.codec, q, tr⟩ d = s.seq d := by cases d <;> rfl
/-- Writing a counter leaves the ports alone. -/
@[simp] theorem State.mk_setSeq (s : State) (q : List HostMove) (tr : List Shown) (d : Dir) (v : Count) :
    State.setSeq ⟨s.codec, q, tr⟩ d v = ⟨(s.setSeq d v).codec, q, tr⟩ := by cases d <;> rfl

@[simp] theorem Dir.other_other (d : Dir) : d.other.other = d := by cases d <;> rfl
theorem Dir.other_ne (d : Dir) : d.other ≠ d := by cases d <;> decide
theorem Dir.eq_other_of_ne {d e : Dir} (ne : e ≠ d) : e = d.other := by
  cases d <;> cases e <;> first | rfl | exact absurd rfl ne

end Sys2Proof.Machine
end

