-- ==== Sys2Proof/Laws/Ops.lean ====
section
/-! SUPPORT. What each shared operation does, said once. -/

namespace Sys2Proof.Machine

@[simp] theorem seqNext_fst (d : Dir) (s : State) : (seqNext d s).1 = nextCount (s.seq d) := rfl
@[simp] theorem seqNext_snd (d : Dir) (s : State) : (seqNext d s).2 = s.setSeq d (nextCount (s.seq d)) := rfl

/-- The wrapping increment of a 14-bit word is `next`. -/
theorem nextCount_eq_add_one (c : Count) : nextCount c = c + 1 := by
  apply BitVec.eq_of_toNat_eq
  simp [nextCount, Config.seqMod, BitVec.toNat_add]

@[simp] theorem returnOk_eq_next (v : OkResult) (s : State) : returnOk v s = .next (s.respond (.ok v)) := rfl
@[simp] theorem raise_eq_next (x : Failure) (s : State) : raise x s = .next (s.respond (.failed x)) := rfl

@[simp] theorem memWrite_length (b : List Byte) (off : Nat) (v : HeaderWord) :
    (memWrite b off v).length = b.length := by simp [memWrite]

/-- MemWrite replaces exactly the two octets at its offset. -/
theorem memWrite_append (pre : List Byte) (x y : Byte) (post : List Byte) (v : HeaderWord) :
    memWrite (pre ++ x :: y :: post) pre.length v
      = pre ++ v.extractLsb' 8 8 :: v.extractLsb' 0 8 :: post := by
  simp [memWrite]

@[simp] theorem storeOctets_length (xs : List Byte) : ∀ (b : List Byte) (off : Nat),
    (storeOctets b off xs).length = b.length := by
  induction xs with
  | nil => intro b off; rfl
  | cons x xs ih => intro b off; simp [storeOctets, ih]

/-- Storing octets replaces exactly that many octets from the offset on. -/
theorem storeOctets_append (xs : List Byte) : ∀ (pre old post : List Byte), old.length = xs.length →
    storeOctets (pre ++ old ++ post) pre.length xs = pre ++ xs ++ post := by
  induction xs with
  | nil => intro pre old post h; simp [storeOctets, List.length_eq_zero_iff.mp h]
  | cons x xs ih =>
    intro pre old post h
    obtain _ | ⟨y, ys⟩ := old
    · simp at h
    · have step := ih (pre ++ [x]) ys post (by simpa using h)
      simpa [storeOctets, List.set_append] using step

/-- A slice inside its buffer has the length its bounds say. -/
theorem slice_length (b : List Byte) {i j : Nat} (hj : j ≤ b.length) : (slice b i j).length = j - i := by
  simp [slice, Nat.min_eq_left hj]

/-- Octet `k` of a slice is octet `i + k` of its buffer. -/
theorem slice_getElem? (b : List Byte) (i j k : Nat) (h : i + k < j) : (slice b i j)[k]? = b[i + k]? := by
  simp [slice, h]

/-- A slice does not see what follows its end. -/
theorem slice_append (b extra : List Byte) {i j : Nat} (hj : j ≤ b.length) :
    slice (b ++ extra) i j = slice b i j := by
  simp [slice, List.take_append_of_le_length hj]

/-- The header words written in order are the header's octets, most significant first. -/
theorem writeHeader_cons (x0 x1 x2 x3 x4 x5 : Byte) (rest : List Byte) (h : Header) :
    writeHeader (x0 :: x1 :: x2 :: x3 :: x4 :: x5 :: rest) h = octetsOfHeader h ++ rest := by
  have e1 := memWrite_append [] x0 x1 (x2 :: x3 :: x4 :: x5 :: rest) (packetIdWord h)
  have e2 := fun a b => memWrite_append [a, b] x2 x3 (x4 :: x5 :: rest) (sequenceWordWord h)
  have e3 := fun a b c d => memWrite_append [a, b, c, d] x4 x5 rest (dataLengthWord h)
  simp only [List.nil_append, List.cons_append, List.length_nil, List.length_cons] at e1 e2 e3
  simp only [writeHeader, e1, e2, e3, octetsOfHeader, List.cons_append, List.nil_append]
  have sub : ∀ i j : Nat, i + 8 ≤ 16 →
      (h.extractLsb' j 16).extractLsb' i 8 = h.extractLsb' (j + i) 8 := by
    intro i j inside
    ext k hk
    simp [show i + k < 16 by omega, Nat.add_assoc]
  simp [packetIdWord, sequenceWordWord, dataLengthWord, sub]

/-- A buffer is shorter than a header, or it is six octets and the rest. -/
theorem short_or_header : ∀ b : List Byte,
    b.length < 6 ∨ ∃ h0 h1 h2 h3 h4 h5 rest, b = h0 :: h1 :: h2 :: h3 :: h4 :: h5 :: rest
  | [] => .inl (Nat.lt_of_sub_eq_succ rfl)
  | [_] => .inl (Nat.lt_of_sub_eq_succ rfl)
  | [_, _] => .inl (Nat.lt_of_sub_eq_succ rfl)
  | [_, _, _] => .inl (Nat.lt_of_sub_eq_succ rfl)
  | [_, _, _, _] => .inl (Nat.lt_of_sub_eq_succ rfl)
  | [_, _, _, _, _] => .inl (Nat.lt_of_sub_eq_succ rfl)
  | h0 :: h1 :: h2 :: h3 :: h4 :: h5 :: rest => .inr ⟨h0, h1, h2, h3, h4, h5, rest, rfl⟩

/-- The writes of BUILD fill the whole of a buffer of the frame's length, whatever stood in it. -/
theorem writeFrame_eq (fout : List Byte) (h : Header) (pin : List Byte) (len : fout.length = 6 + pin.length) :
    writeFrame fout h pin = octetsOfHeader h ++ pin := by
  obtain short | ⟨x0, x1, x2, x3, x4, x5, rest, rfl⟩ := short_or_header fout
  · omega
  · have old : rest.length = pin.length := by simp only [List.length_cons] at len; omega
    have := storeOctets_append pin (octetsOfHeader h) rest [] old
    simpa [writeFrame, writeHeader_cons, Config.hdrLen, octetsOfHeader] using this

/-- A bit of a placed field. -/
@[simp] theorem place_getLsbD {n : Nat} (w pos : Nat) (v : BitVec n) (i : Nat) :
    (place w pos v).getLsbD i = (decide (i < w) && (!decide (i < pos) && v.getLsbD (i - pos))) := by
  by_cases h : i < w
  · simp [place, h]
  · simp [place, h]

@[simp] theorem place_getElem {n : Nat} (w pos : Nat) (v : BitVec n) (i : Nat) (h : i < w) :
    (place w pos v)[i] = (!decide (i < pos) && v.getLsbD (i - pos)) := by
  rw [← BitVec.getLsbD_eq_getElem]
  simp [-BitVec.getLsbD_eq_getElem, h]

/-- The header read from a buffer is its first six octets. -/
theorem readHeader_cons (h0 h1 h2 h3 h4 h5 : Byte) (rest : List Byte)
    (len : Config.hdrLen ≤ (h0 :: h1 :: h2 :: h3 :: h4 :: h5 :: rest).length) :
    readHeader (h0 :: h1 :: h2 :: h3 :: h4 :: h5 :: rest) len = headerOfOctets h0 h1 h2 h3 h4 h5 := by
  simp only [readHeader, headerOfWords, memRead, List.getElem_cons_zero, List.getElem_cons_succ]
  apply BitVec.eq_of_getLsbD_eq
  intro i hi
  simp only [headerOfOctets, BitVec.getLsbD_or, place_getLsbD, BitVec.getLsbD_shiftLeft, BitVec.getLsbD_setWidth]
  interval_cases i <;> simp

end Sys2Proof.Machine
end

