-- ==== Sys2Proof/Laws/Exec.lean ====
section
/-! SUPPORT. What each operation and each step can do. -/

namespace Sys2Proof.Machine

/-- The refused payloads, in numbers. -/
theorem payloadRefused_iff (pin : List Byte) : payloadRefused pin ↔ pin.length = 0 ∨ 65536 < pin.length := by
  simp only [payloadRefused, Config.payloadMin, Config.payloadMax, Nat.lt_one_iff]

/-- BUILD on an accepted payload. -/
theorem execBuild_accepted (d : Dir) (a : Apid) (pin : List Byte) (s : State) (ok : ¬payloadRefused pin) :
    execBuild d a pin s = .next ((s.setSeq d (nextCount (s.seq d))).respond (.ok (.frame
      (octetsOfHeader (packHeader (buildFields d a (nextCount (s.seq d)) pin)) ++ pin)))) := by
  simp [execBuild, ok, writeFrame_eq _ _ pin, freshBuffer, Config.hdrLen]

/-- BUILD on a refused payload. -/
theorem execBuild_refused (d : Dir) (a : Apid) (pin : List Byte) (s : State) (bad : payloadRefused pin) :
    execBuild d a pin s = .next (s.respond (.failed .invalidPayload)) := by
  simp [execBuild, bad]

/-- What PARSE answers, a function of the buffer alone. -/
def parseResponse (bin : List Byte) : Response :=
  if short : headerMissing bin then .failed .headerTooShort
  else
    let f := unpackHeader (readHeader bin (Nat.le_of_not_lt short))
    if payloadTruncated bin f.dataLength then .failed .truncatedPayload
    else .ok (.packet ⟨f, slice bin 6 (6 + f.dataLength.toNat + 1)⟩)

/-- PARSE gives its response and does nothing else. -/
theorem execParse_eq (bin : List Byte) (s : State) : execParse bin s = .next (s.respond (parseResponse bin)) := by
  unfold execParse parseResponse
  split
  · rfl
  · dsimp only
    split <;> rfl

/-- PACK gives the header and does nothing else. -/
theorem execPack_eq (f : HeaderFields) (s : State) :
    execPack f s = .next (s.respond (.ok (.header (packHeader f)))) := rfl

/-- UNPACK gives the fields and does nothing else. -/
theorem execUnpack_eq (h : Header) (s : State) :
    execUnpack h s = .next (s.respond (.ok (.fields (unpackHeader h)))) := rfl

/-- All an operation can do: one counter advanced with a frame shown, or a response shown and no counter changed. -/
theorem exec_cases (i : Instr) (s : State) :
    (∃ d a pin, i = .build d a pin ∧ ¬payloadRefused pin ∧
      exec i s = .next ((s.setSeq d (nextCount (s.seq d))).respond (.ok (.frame
        (octetsOfHeader (packHeader (buildFields d a (nextCount (s.seq d)) pin)) ++ pin))))) ∨
    (i.opCode ≠ 0#2 ∨ (∃ d a pin, i = .build d a pin ∧ payloadRefused pin)) ∧
      ∃ r, (∀ f, r ≠ .ok (.frame f)) ∧ ∀ t, exec i t = .next (t.respond r) := by
  cases i with
  | build d a pin =>
    by_cases bad : payloadRefused pin
    · exact .inr ⟨.inr ⟨d, a, pin, rfl, bad⟩, _, by simp, fun t => execBuild_refused d a pin t bad⟩
    · exact .inl ⟨d, a, pin, rfl, bad, execBuild_accepted d a pin s bad⟩
  | parse bin =>
    refine .inr ⟨.inl (by simp [Instr.opCode]), _, ?_, fun t => execParse_eq bin t⟩
    intro f
    unfold parseResponse
    split
    · simp
    · dsimp only
      split <;> simp
  | pack f => exact .inr ⟨.inl (by simp [Instr.opCode]), _, by simp, fun t => execPack_eq f t⟩
  | unpack h => exact .inr ⟨.inl (by simp [Instr.opCode]), _, by simp, fun t => execUnpack_eq h t⟩

/-- A step with nothing presented. -/
theorem step_idle {s : State} (h : s.requests = []) : step s = .next s := by simp [step, h]

/-- A step that takes a reset event. -/
theorem step_reset {s : State} {rest : List HostMove} (h : s.requests = .reset :: rest) :
    step s = .next { s with requests := rest }.resetEvent := by simp [step, h]

end Sys2Proof.Machine
end

