-- ==== Sys2Proof/Laws/Header.lean ====
section
/-! SUPPORT. The header bit by bit: what each assembly puts where, with the shared bit 10 and the unassigned
bit 12 of `packetId` in view. -/

namespace Sys2Proof.Machine

theorem assemblePacketId_getLsbD (f : HeaderFields) (i : Nat) :
    (assemblePacketId f).getLsbD i = (decide (i < 16) &&
      ((!decide (i < 13) && f.version.getLsbD (i - 13)) || (!decide (i < 11) && f.packetType.getLsbD (i - 11)) ||
        (!decide (i < 10) && f.secondaryHeaderFlag.getLsbD (i - 10)) || f.apid.getLsbD i)) := by
  by_cases h : i < 16
  · simp [assemblePacketId, Config.verPos, Config.typePos, Config.shfPos, Config.apidPos, h]
  · simp [h, Nat.not_lt.mp h]

theorem assembleSequenceWord_getLsbD (f : HeaderFields) (i : Nat) :
    (assembleSequenceWord f).getLsbD i = (decide (i < 16) &&
      ((!decide (i < 14) && f.sequenceFlags.getLsbD (i - 14)) || f.sequenceCount.getLsbD i)) := by
  by_cases h : i < 16
  · simp [assembleSequenceWord, Config.flagsPos, Config.countPos, h]
  · simp [h, Nat.not_lt.mp h]

theorem headerOfWords_getLsbD (p q r : HeaderWord) (i : Nat) :
    (headerOfWords p q r).getLsbD i = (decide (i < 48) &&
      ((!decide (i < 32) && p.getLsbD (i - 32)) || (!decide (i < 16) && q.getLsbD (i - 16)) || r.getLsbD i)) := by
  by_cases h : i < 48
  · simp [headerOfWords, h]
  · simp [h, Nat.not_lt.mp h]

/-- A packed header, bit by bit. -/
theorem packHeader_getLsbD (f : HeaderFields) (i : Nat) :
    (packHeader f).getLsbD i = (decide (i < 48) &&
      ((!decide (i < 32) && (assemblePacketId f).getLsbD (i - 32)) ||
        (!decide (i < 16) && (assembleSequenceWord f).getLsbD (i - 16)) || f.dataLength.getLsbD i)) :=
  headerOfWords_getLsbD _ _ _ i

/-- The masks of the unpacker keep exactly the field they cut out. -/
theorem unpackHeader_eq (h : Header) : unpackHeader h =
    { version := (packetIdWord h).extractLsb' 13 3
      packetType := (packetIdWord h).extractLsb' 11 1
      secondaryHeaderFlag := (packetIdWord h).extractLsb' 10 1
      apid := (packetIdWord h).extractLsb' 0 11
      sequenceFlags := (sequenceWordWord h).extractLsb' 14 2
      sequenceCount := (sequenceWordWord h).extractLsb' 0 14
      dataLength := dataLengthWord h } := by
  simp only [unpackHeader, HeaderFields.mk.injEq]
  refine ⟨?_, ?_, ?_, ?_, ?_, ?_, trivial⟩ <;>
    (apply BitVec.eq_of_getLsbD_eq
     intro k hk
     interval_cases k <;> simp [Config.verPos, Config.typePos, Config.shfPos, Config.flagsPos])

end Sys2Proof.Machine
end

