-- ==== Sys2Proof/Laws/PerInstr.lean ====
section
/-! SUPPORT. The family `EncodesOpCode`: a record that presents an operation carries the operation's
select code in the two low bits of its control word (spec/30_encoding.md R73). -/

namespace Sys2Proof.Laws.EncodesOpCode

/-- The low two bits of the control word are the select code. -/
def Statement (i : Instr) : Prop := (encode i).control.extractLsb' 0 2 = i.opCode

open Sys2Proof.Machine in
theorem build (dir : Dir) (apid : Apid) (pin : List Byte) : Statement (.build dir apid pin) := by
  apply BitVec.eq_of_getLsbD_eq
  intro k hk
  simp [encode, show k < 50 by omega, show k < 3 by omega, show k < 2 by omega]

theorem parse (bin : List Byte) : Statement (.parse bin) := by
  simp only [Statement, encode, Instr.opCode]; decide

open Sys2Proof.Machine in
theorem pack (fields : HeaderFields) : Statement (.pack fields) := by
  apply BitVec.eq_of_getLsbD_eq
  intro k hk
  interval_cases k <;> simp [encode]

open Sys2Proof.Machine in
theorem unpack (header : Header) : Statement (.unpack header) := by
  apply BitVec.eq_of_getLsbD_eq
  intro k hk
  simp [encode, show k < 50 by omega, hk]

end Sys2Proof.Laws.EncodesOpCode
end

