-- ==== Sys2Proof/Laws/Run.lean ====
section
/-! SUPPORT. What one move does inside a run, said once for each kind of move. -/

namespace Sys2Proof.Machine

/-- A run of any machine of the host's interface, by the machine's own step. -/
theorem coreRun_eq (M : Host.Core) (run : Nat → M.State → Host.Outcome M.State M.Fault M.Refusal)
    (zero : ∀ s, run 0 s = .next s)
    (next : ∀ n s t, M.step s = .next t → run (n + 1) s = run n t)
    (fault : ∀ n s r, M.step s = .fault r → run (n + 1) s = .fault r)
    (refused : ∀ n s r, M.step s = .refused r → run (n + 1) s = .refused r) (n : Nat) :
    ∀ s, M.run n s = run n s := by
  induction n with
  | zero => intro s; rw [zero]; rfl
  | succ n ih =>
    intro s
    simp only [Host.Core.run]
    cases h : M.step s with
    | next t => rw [next n s t h]; exact ih t
    | fault r => rw [fault n s r h]
    | refused r => rw [refused n s r h]

/-- The runs claims are stated in are those of the host's interface. -/
theorem runSteps_eq_coreRun (n : Nat) (s : State) : Host.Core.run Sys2Proof.core n s = runSteps n s :=
  coreRun_eq Sys2Proof.core runSteps (fun _ => rfl)
    (fun n s t (h : step s = .next t) => by simp only [runSteps, h]; rfl)
    (fun n s r (h : step s = .fault r) => by simp only [runSteps, h]; rfl)
    (fun n s r (h : step s = .refused r) => by simp only [runSteps, h]; rfl) n s

@[simp] theorem runMoves_nil (s : State) : runMoves [] s = .next { s with requests := [] } := rfl

/-- A run does not see what stood in the queue before its moves. -/
@[simp] theorem runMoves_withRequests (moves q : List HostMove) (s : State) :
    runMoves moves { s with requests := q } = runMoves moves s := rfl

/-- A run whose first move is a reset event. -/
theorem runMoves_reset (moves : List HostMove) (s : State) :
    runMoves (.reset :: moves) s = runMoves moves s.resetEvent := rfl

/-- A run whose first move is an operation that answers a next state which keeps the queue. -/
theorem runMoves_operation {r : Record} {moves : List HostMove} {s t : State}
    (answer : exec (decode r) { s with requests := moves } = .next t) (queue : t.requests = moves) :
    runMoves (.operation r :: moves) s = runMoves moves t := by
  have : step { s with requests := .operation r :: moves } = .next t := answer
  simp only [runMoves, List.length_cons, runSteps, this]
  rw [← queue]

end Sys2Proof.Machine
end

