-- ==== Sys2Proof/Tests/Slice0.lean ====
section
/-! SUPPORT. Tests. Every expected value is from spec/95_test_vectors.md (the vector is named) or worked out
by hand from the rule named; then one witness for the hypotheses of each statement that has some. -/

namespace Sys2Proof.Tests

open Sys2Proof.Machine

/-- A state with the given counters, nothing presented and nothing shown. -/
abbrev counters (tm tc : Count) : State := ⟨⟨tm, tc⟩, [], []⟩

/-- The counters and the newest response after one operation. -/
def after (o : Host.Outcome State Fault Refusal) : Option (CodecState × Option Shown) :=
  match o with
  | .next t => some (t.codec, t.trace.head?)
  | .fault _ => none
  | .refused _ => none

/-- Present one operation by its record and take one step. -/
def present (i : Instr) (s : State) : Host.Outcome State Fault Refusal :=
  step { s with requests := [.operation (encode i)] }

/-! ### WellFormed: each check refuses an ill-formed term -/

theorem test_bufMax_below_frameMax_refused :
    (Instr.pack ⟨0, 0, 0, 0, 0, 0, 0⟩).wellFormedWithin (some 65541) = false := by decide
theorem test_payload_over_bufMax_refused (b : List Byte) (h : b.length = 65543) :
    (Instr.build .tm 0 b).wellFormedWithin (some 65542) = false := by
  simp [Instr.wellFormedWithin, Instr.fitsWithin, bufferFits, h]
theorem test_buffer_over_bufMax_refused (b : List Byte) (h : b.length = 65543) :
    (Instr.parse b).wellFormedWithin (some 65542) = false := by
  simp [Instr.wellFormedWithin, Instr.fitsWithin, bufferFits, h]
theorem test_unbounded_accepts : (Instr.build .tm 0 [0]).wellFormed = true := by decide

/-! ### Decode: records written out bit by bit (select codes of R73, operands as log entry 3 lays them out) -/

/-- bits: 36 unused, apid 10000000010, dir 1, op 00 -/
theorem test_decode_build :
    decode ⟨0b00000000000000000000000000000000000010000000010100, [0x50]⟩ = .build .tc 0x402 [0x50] := by decide
/-- bits: 48 unused, op 01 -/
theorem test_decode_parse :
    decode ⟨0b00000000000000000000000000000000000000000000000001, [0xAA]⟩ = .parse [0xAA] := by decide
/-- bits: version 101, type 1, flag 0, apid 01010101010, flags 01, count 01010101010101, length 0001001000110100, op 10 (K8) -/
theorem test_decode_pack :
    decode ⟨0b10110010101010100101010101010101000100100011010010, []⟩
      = .pack ⟨5, 1, 0, 0x2AA, 1, 0x1555, 0x1234⟩ := by decide
/-- bits: the 48 bits of 08 01 C0 01 00 03, op 11 (X1) -/
theorem test_decode_unpack :
    decode ⟨0b00001000000000011100000000000001000000000000001111, []⟩ = .unpack 0x0801C0010003 := by decide
theorem test_decode_octets :
    decodeOctets [0x0F, 0x00, 0x04, 0x00, 0x07, 0x20, 0x00] = .ok (.unpack 0x0801C0010003) := by rfl
theorem test_octets_too_short : decodeOctets [0x01, 0, 0, 0, 0, 0] = .error .controlTooShort := by rfl
theorem test_octets_too_wide : decodeOctets [0x01, 0, 0, 0, 0, 0, 0x04] = .error .controlTooWide := by rfl
theorem test_table_words :
    [decodeTableWord 8 0, decodeTableWord 8 1, decodeTableWord 8 2, decodeTableWord 8 3]
      = [some (.build .tm 0 []), some (.parse []), some (.pack ⟨0, 0, 0, 0, 0, 0, 0⟩), some (.unpack 0)] := by
  decide

/-! ### One step each -/

/-- B4: APID bit 10 sets `packetId` bit 10. -/
theorem test_build_apid_bit10 :
    after (present (.build .tc 0x400 [0xFF]) (counters 3 1))
      = some (⟨3, 2⟩, some (.response (.ok (.frame [0x0C, 0x00, 0xC0, 0x02, 0x00, 0x00, 0xFF])))) := by rfl
/-- B6: wrap; count 0 emitted, the other counter kept. -/
theorem test_build_wraps :
    after (present (.build .tm 0x010 [0x5A]) (counters 16383 7))
      = some (⟨0, 7⟩, some (.response (.ok (.frame [0x00, 0x10, 0xC0, 0x00, 0x00, 0x00, 0x5A])))) := by rfl
/-- P12: the bound is 65542, not reduced mod 65536. -/
theorem test_parse_bound_not_reduced :
    after (present (.parse [0x00, 0x00, 0x00, 0x00, 0xFF, 0xFF, 0x00]) (counters 1 2))
      = some (⟨1, 2⟩, some (.response (.failed .truncatedPayload))) := by rfl
/-- P11 with P6's two extra octets: the shared bit on decode, octets after the payload ignored. -/
theorem test_parse_shared_bit :
    after (present (.parse [0x04, 0x00, 0x80, 0x00, 0x00, 0x00, 0x7E, 0x22, 0x33]) (counters 1 2))
      = some (⟨1, 2⟩, some (.response (.ok (.packet ⟨⟨0, 0, 1, 1024, 2, 0, 0⟩, [0x7E]⟩)))) := by rfl
/-- K8: alternating bits. -/
theorem test_pack_alternating :
    after (present (.pack ⟨5, 1, 0, 0x2AA, 1, 0x1555, 0x1234⟩) (counters 1 2))
      = some (⟨1, 2⟩, some (.response (.ok (.header 0xAAAA55551234)))) := by rfl
/-- K3: all ones; bit 44 stays 0. -/
theorem test_pack_all_ones :
    after (present (.pack ⟨7, 1, 1, 0x7FF, 3, 16383, 65535⟩) (counters 1 2))
      = some (⟨1, 2⟩, some (.response (.ok (.header 0xEFFFFFFFFFFF)))) := by rfl
/-- X2: bit 12 set, ignored. -/
theorem test_unpack_bit12 :
    after (present (.unpack 0x1801C0010003) (counters 1 2))
      = some (⟨1, 2⟩, some (.response (.ok (.fields ⟨0, 1, 0, 1, 3, 1, 3⟩)))) := by rfl
/-- X11: an APID below 1024 packed with flag 1 comes back 1024 higher. -/
theorem test_unpack_shared_bit :
    after (present (.unpack 0x4555AAAAABCD) (counters 1 2))
      = some (⟨1, 2⟩, some (.response (.ok (.fields ⟨2, 0, 1, 1365, 2, 10922, 43981⟩)))) := by rfl
/-- Program 4, step 3. -/
theorem test_reset_event :
    after (step ⟨⟨1, 1⟩, [.reset], []⟩) = some (⟨0, 0⟩, some .wasReset) := by rfl
/-- Q3: carry into bit 13. -/
theorem test_next_count : nextCount 8191 = 8192 := by rfl
/-- Each table word is what the next step runs: an empty BUILD from reset fails with InvalidPayload (R141). -/
theorem test_fetch_word :
    after (step (State.reset.withFetchWord 8 0)) = some (⟨0, 0⟩, some (.response (.failed .invalidPayload))) := by rfl

/-! ### Witnesses: for each statement with hypotheses, a state and operands that meet them -/

/-- A BUILD TC record and a state that presents it. -/
abbrev ping : Instr := .build .tc 1 [0x50, 0x49, 0x4E, 0x47]
abbrev pingState : State := { counters 5 6 with requests := [.operation (encode ping)] }
/-- A state that the trace invariants hold in, with frames of both directions. -/
abbrev shownState : State where
  codec := ⟨1, 2⟩
  requests := [.operation (encode ping)]
  trace := [.response (.ok (.frame [0x08, 0x01, 0xC0, 0x02, 0x00, 0x00, 0x11])),
    .response (.ok (.frame [0x00, 0x01, 0xC0, 0x01, 0x00, 0x00, 0x11])),
    .response (.failed .headerTooShort),
    .response (.ok (.frame [0x08, 0x01, 0xC0, 0x01, 0x00, 0x00, 0x11])), .wasReset,
    .response (.ok (.frame [0x08, 0x01, 0xC0, 0x07, 0x00, 0x00, 0x11]))]

theorem witness_EverySelectCodeIsAssigned :
    pingState.requests = .operation (encode ping) :: [] := rfl
theorem witness_PresentedTableWordRuns : decodeTableWord 8 3 = some (.unpack 0) := by decide
theorem witness_PresentedTableWordRuns_operands :
    decodeTableWord 16 0x000C = some (.build .tc 1 []) := by decide
theorem witness_StepRunsDecodedOperation :
    pingState.requests = .operation (encode ping) :: [] ∧ decode (encode ping) = ping ∧ ping.wellFormed = true := by
  decide
theorem witness_IdleStepChangesNothing : (counters 1 2).requests = [] := rfl
theorem witness_ResetClearsBothCounters :
    ({ counters 5 6 with requests := [.reset] } : State).requests = .reset :: [] ∧
    ∃ t, step { counters 5 6 with requests := [.reset] } = .next t ∧ (counters 5 6).seq .tm ≠ 0 ∧ t.seq .tm = 0 :=
  ⟨rfl, _, rfl, by decide, rfl⟩
theorem witness_ResetClearsBothCounters_wrap :
    ∃ t, present ping (counters 5 16383) = .next t ∧ (counters 5 16383).seq .tc ≠ 0 ∧ t.seq .tc = 0 :=
  ⟨_, rfl, by decide, by decide⟩
theorem witness_OnlyBuildAndResetWriteCounters :
    ∃ t, step pingState = .next t ∧ t.seq .tc ≠ pingState.seq .tc := ⟨_, rfl, by decide⟩
theorem witness_NextCountIsSuccessor : (16382 : Count).toNat ≤ 16382 := by decide
theorem witness_NextCountHasPeriod16384 : 0 < 16383 ∧ 16383 < 16384 := by decide
theorem witness_CountersAreIndependent :
    (∃ t, exec ping (counters 1 2) = .next t) ∧ (Instr.parse []).opCode ≠ 0#2 := ⟨⟨_, rfl⟩, by decide⟩
theorem witness_OperationFrame :
    (∃ t, exec ping (counters 1 2) = .next t) ∧ (∃ t, exec (.parse [1]) (counters 1 2) = .next t) ∧
    (∃ t, exec (.pack ⟨0, 0, 0, 0, 0, 0, 0⟩) (counters 1 2) = .next t) ∧
    (∃ t, exec (.unpack 0) (counters 1 2) = .next t) := ⟨⟨_, rfl⟩, ⟨_, rfl⟩, ⟨_, rfl⟩, ⟨_, rfl⟩⟩
theorem witness_OperationFrame_refused :
    ∃ t, exec (.build .tm 1 []) (counters 1 2) = .next t ∧ ([] : List Byte).length = 0 := ⟨_, rfl, rfl⟩
theorem witness_NothingElseCarriesOver : shownState.codec = (counters 1 2).codec ∧ shownState ≠ counters 1 2 := by
  decide
theorem witness_DecoderAndPackerIgnoreState :
    (Instr.parse [1]).opCode ≠ 0#2 ∧ (Instr.pack ⟨0, 0, 0, 0, 0, 0, 0⟩).opCode ≠ 0#2 ∧
    (Instr.unpack 0).opCode ≠ 0#2 := by decide
theorem witness_MemoryPrimitivesAreBigEndian :
    1 + 2 ≤ ([0, 1, 2] : List Byte).length ∧ 1 + 2 ≤ (memWrite [0, 1, 2] 1 0x0801).length ∧
    (0 : Nat) ≠ 1 ∧ (0 : Nat) ≠ 1 + 1 := by decide
theorem witness_UnpackAfterPack :
    (⟨7, 1, 0, 1023, 3, 1, 2⟩ : HeaderFields).secondaryHeaderFlag = 0 ∧ (1023 : Apid).toNat < 1024 := by decide
theorem witness_PackCornerCases : (1023 : Apid).toNat < 1024 := by decide
theorem witness_FlagAndApidShareABit :
    (⟨0, 0, 1, 1023, 3, 2, 0⟩ : HeaderFields).secondaryHeaderFlag = 1 ∧ (1023 : Apid).toNat < 1024 ∧
    1024 ≤ (1024 : Apid).toNat := by decide
theorem witness_UnassignedBitIsIgnored :
    ∃ t h0 rest, exec ping (counters 1 2) = .next t ∧
      t.trace = .response (.ok (.frame (h0 :: rest))) :: (counters 1 2).trace := ⟨_, _, _, rfl, rfl⟩
/-- Both ends of the accepted payload lengths: BuildCompletes, BuildFrameOctets, HeaderValuesEmitted,
FlagAndApidShareABit and ParseAfterBuild. -/
theorem witness_BuildCompletes : ∃ one longest : List Byte,
    (1 ≤ one.length ∧ one.length ≤ 65536) ∧ (1 ≤ longest.length ∧ longest.length ≤ 65536) ∧
      one.length = 1 ∧ longest.length = 65536 :=
  ⟨[0], List.replicate 65536 0, ⟨by decide, by decide⟩, ⟨by rw [List.length_replicate]; omega, by rw [List.length_replicate]⟩,
    rfl, List.length_replicate⟩
theorem witness_BuildFrameOctets : 1 ≤ ([0x5A] : List Byte).length ∧ ([0x5A] : List Byte).length ≤ 65536 := by decide
theorem witness_HeaderValuesEmitted : 1 ≤ ([0x5B] : List Byte).length ∧ ([0x5B] : List Byte).length ≤ 65536 := by
  decide
theorem witness_ParseAfterBuild : 1 ≤ ([0x5C] : List Byte).length ∧ ([0x5C] : List Byte).length ≤ 65536 := by decide
theorem witness_BuildRefusesBadPayload : ∃ empty tooLong : List Byte,
    empty.length = 0 ∧ tooLong.length = 65537 ∧ 65536 < tooLong.length ∧
    ∃ t, exec (.build .tm 5 empty) (counters 4 9) = .next t ∧
      t.trace = .response (.failed .invalidPayload) :: (counters 4 9).trace :=
  ⟨[], List.replicate 65537 0, rfl, List.length_replicate, by rw [List.length_replicate]; omega, _, rfl, rfl⟩
theorem witness_DirectionIsOneBit :
    1 ≤ ([0x5A] : List Byte).length ∧ ([0x5A] : List Byte).length ≤ 65536 ∧
    (counters 3 9).seq .tm = (counters 9 3).seq .tc := by decide
theorem witness_ParseCompletes : (0x00 : Byte).toNat * 256 + (0x01 : Byte).toNat + 1 ≤ ([0xDE, 0xAD] : List Byte).length := by
  decide
/-- The five rows of R132 with d = 1: lengths 5, 6, 7 = 6 + d, 8 = 7 + d and 9. -/
theorem witness_ParseOutcomeByLength :
    ([0, 0, 0, 0, 0] : List Byte).length ≤ 5 ∧ ([0, 0, 0, 0, 0, 1] : List Byte).length = 6 ∧
    (∀ b : List Byte, b = [0, 0, 0, 0, 0, 1, 9] →
      b[4]? = some 0 ∧ b[5]? = some 1 ∧ 7 ≤ b.length ∧ b.length ≤ 6 + ((0 : Byte).toNat * 256 + (1 : Byte).toNat)) ∧
    (∀ b : List Byte, b = [0, 0, 0, 0, 0, 1, 9, 8] →
      b[4]? = some 0 ∧ b[5]? = some 1 ∧ b.length = 7 + ((0 : Byte).toNat * 256 + (1 : Byte).toNat)) ∧
    (∀ b : List Byte, b = [0, 0, 0, 0, 0, 1, 9, 8, 7] →
      b[4]? = some 0 ∧ b[5]? = some 1 ∧ 7 + ((0 : Byte).toNat * 256 + (1 : Byte).toNat) < b.length) := by
  refine ⟨by decide, by decide, ?_, ?_, ?_⟩ <;> (rintro b rfl; decide)
/-- P10. -/
theorem witness_ParsedPacketShape :
    ∃ t p, exec (.parse [0x00, 0x00, 0x40, 0x05, 0x00, 0x01, 0xDE, 0xAD]) (counters 1 2) = .next t ∧
      t.trace = .response (.ok (.packet p)) :: (counters 1 2).trace := ⟨_, _, rfl, rfl⟩
theorem witness_OctetsAfterPayloadIgnored :
    ∃ p, exec (.parse [0x00, 0x00, 0x40, 0x05, 0x00, 0x01, 0xDE, 0xAD]) (counters 1 2)
      = .next { counters 1 2 with trace := .response (.ok (.packet p)) :: (counters 1 2).trace } := ⟨_, rfl⟩
theorem witness_FailuresExactlyWhen :
    ∃ t, exec (.parse [0x08, 0x05, 0xC0, 0x01, 0x00, 0x0A, 0x11, 0x22, 0x33]) (counters 0 1) = .next t ∧
      t.trace = .response (.failed .truncatedPayload) :: (counters 0 1).trace := ⟨_, rfl, rfl⟩
theorem witness_FailureWritesNoState :
    ∃ t, exec (.parse [0x08, 0x05, 0xC0, 0x01, 0x00]) (counters 0 1) = .next t ∧
      t.trace = .response (.failed .headerTooShort) :: (counters 0 1).trace := ⟨_, rfl, rfl⟩
theorem witness_CountersHoldLastCountKept :
    CountersHoldLastCount shownState ∧ ∃ t, step shownState = .next t :=
  ⟨fun d => by cases d <;> decide, _, rfl⟩
theorem witness_CountsFollowBuildsKept :
    CountsFollowBuilds shownState ∧ ∃ t, step shownState = .next t :=
  ⟨fun d => by cases d <;> decide, _, rfl⟩
theorem witness_CountsRepeatEvery16384 :
    CountsFollowBuilds shownState ∧ 0 + 1 < (countsOf .tc (sinceReset shownState.trace)).length ∧ 0 < 1 :=
  ⟨fun d => by cases d <;> decide, by decide, by decide⟩
theorem witness_PureOperationsInsertAnywhere :
    (decode (encode (.parse [1]))).leavesCounters = true ∧
    (decode (encode (.build .tm 0 []))).leavesCounters = true ∧
    (decode (encode (.pack ⟨0, 0, 0, 0, 0, 0, 0⟩))).leavesCounters = true ∧
    (decode (encode (.unpack 0))).leavesCounters = true := by decide
/-- Between reset and BUILD: the other direction's BUILD, a PARSE, and a refused BUILD of the same direction. -/
theorem witness_ResetForgetsHistory :
    decode (encode ping) = ping ∧ 1 ≤ ([0x50, 0x49, 0x4E, 0x47] : List Byte).length ∧
    ([0x50, 0x49, 0x4E, 0x47] : List Byte).length ≤ 65536 ∧
    (HostMove.operation (encode (.build .tc 5 []))).buildsIn .tc = true ∧
    (∀ m ∈ [HostMove.operation (encode (.build .tm 1 [1])), .operation (encode (.parse [])),
        .operation (encode (.build .tc 5 []))],
      m ≠ .reset ∧ (m.buildsIn .tc = true → ∃ r' a' pin', m = .operation r' ∧
        decode r' = .build .tc a' pin' ∧ payloadRefused pin')) := by
  refine ⟨by decide, by decide, by decide, by decide, ?_⟩
  intro m hm
  simp only [List.mem_cons, List.not_mem_nil, or_false] at hm
  obtain rfl | rfl | rfl := hm
  · exact ⟨by simp, fun h => absurd h (by decide)⟩
  · exact ⟨by simp, fun h => absurd h (by decide)⟩
  · exact ⟨by simp, fun _ => ⟨_, 5, [], rfl, by decide, by decide⟩⟩

end Sys2Proof.Tests
end

section
/-! What BUILD's header puts in a frame, what a trace shows of the frames of one direction, and what one step
does to both: the layer the statements about the counters (spec/10_state.md) rest on. -/

namespace Sys2Proof.Machine

/-! ### Counters under writes -/

theorem nextCount_toNat (c : Count) : (nextCount c).toNat = (c.toNat + 1) % 16384 := by
  simp [nextCount, Config.seqMod]

/-- The successor of `n` mod 16384 is `n + 1` mod 16384. -/
theorem nextCount_eq_ofNat {c : Count} {n : Nat} (number : c.toNat = n % 16384) :
    nextCount c = BitVec.ofNat 14 ((n + 1) % 16384) := by
  simp [nextCount, Config.seqMod, number]

/-- A counter is read from the two counters alone. -/
theorem State.seq_congr {s₁ s₂ : State} (same : s₁.codec = s₂.codec) (d : Dir) : s₁.seq d = s₂.seq d := by
  cases d <;> simp [State.seq, same]

/-- A counter write takes equal counters to equal counters. -/
theorem State.setSeq_codec_congr {s₁ s₂ : State} (same : s₁.codec = s₂.codec) (d : Dir) (v : Count) :
    (s₁.setSeq d v).codec = (s₂.setSeq d v).codec := by
  cases d <;> simp [State.setSeq, same]

@[simp] theorem State.setSeq_other_seq (s : State) (d : Dir) (v : Count) :
    (s.setSeq d.other v).seq d = s.seq d :=
  s.setSeq_seq_of_ne v (Dir.other_ne d).symm

/-- Writes of the two counters commute. -/
theorem State.setSeq_other_comm (s : State) (d : Dir) (v w : Count) :
    (s.setSeq d.other v).setSeq d w = (s.setSeq d w).setSeq d.other v := by
  cases d <;> rfl

/-- Showing a response and writing a counter commute. -/
theorem State.setSeq_respond (s : State) (d : Dir) (v : Count) (r : Response) :
    (s.respond r).setSeq d v = (s.setSeq d v).respond r := by
  cases d <;> rfl

/-! ### The frame BUILD answers -/

/-- The frame BUILD answers on an accepted payload when the new count is `c` (R105). -/
def builtFrame (d : Dir) (a : Apid) (c : Count) (pin : List Byte) : List Byte :=
  octetsOfHeader (packHeader (buildFields d a c pin)) ++ pin

/-- An accepted BUILD stores the successor in its counter and shows the frame that carries it. -/
theorem exec_build_accepted (d : Dir) (a : Apid) {pin : List Byte} (ok : ¬payloadRefused pin) (s : State) :
    exec (.build d a pin) s = .next ((s.setSeq d (nextCount (s.seq d))).respond
      (.ok (.frame (builtFrame d a (nextCount (s.seq d)) pin)))) :=
  execBuild_accepted d a pin s ok

/-- A refused BUILD shows its failure and does nothing else. -/
theorem exec_build_refused (d : Dir) (a : Apid) {pin : List Byte} (bad : payloadRefused pin) (s : State) :
    exec (.build d a pin) s = .next (s.respond (.failed .invalidPayload)) :=
  execBuild_refused d a pin s bad

/-- Bit 11 of `packetId` is `packetType` (R68). -/
theorem packHeader_getLsbD_packetType (f : HeaderFields) :
    (packHeader f).getLsbD 43 = f.packetType.getLsbD 0 := by
  rw [packHeader_getLsbD, assemblePacketId_getLsbD]
  simp

/-- The low 14 bits of `sequenceWord` are `sequenceCount` (R69). -/
theorem packHeader_extract_sequenceCount (f : HeaderFields) :
    (packHeader f).extractLsb' 16 14 = f.sequenceCount := by
  apply BitVec.eq_of_getLsbD_eq
  intro k hk
  rw [BitVec.getLsbD_extractLsb', packHeader_getLsbD, assembleSequenceWord_getLsbD]
  simp [hk, show 16 + k < 48 by omega, show 16 + k < 32 by omega, show k < 16 by omega]

theorem frameDir_octetsOfHeader (h : Header) (pin : List Byte) :
    frameDir (octetsOfHeader h ++ pin) = some (if h.getLsbD 43 then .tc else .tm) := by
  simp [octetsOfHeader, frameDir]

theorem frameCount_octetsOfHeader (h : Header) (pin : List Byte) :
    frameCount (octetsOfHeader h ++ pin) = h.extractLsb' 16 14 := by
  apply BitVec.eq_of_getLsbD_eq
  intro k hk
  simp only [octetsOfHeader, List.cons_append, frameCount, BitVec.getLsbD_setWidth, BitVec.getLsbD_append,
    BitVec.getLsbD_extractLsb']
  by_cases low : k < 8
  · simp [low]
  · simp [low, show k - 8 < 8 by omega, show 24 + (k - 8) = 16 + k by omega]

@[simp] theorem frameDir_builtFrame (d : Dir) (a : Apid) (c : Count) (pin : List Byte) :
    frameDir (builtFrame d a c pin) = some d := by
  rw [builtFrame, frameDir_octetsOfHeader, packHeader_getLsbD_packetType]
  cases d <;> simp [buildFields, Dir.bit]

@[simp] theorem frameCount_builtFrame (d : Dir) (a : Apid) (c : Count) (pin : List Byte) :
    frameCount (builtFrame d a c pin) = c := by
  rw [builtFrame, frameCount_octetsOfHeader, packHeader_extract_sequenceCount]
  rfl

/-! ### What a trace shows of one direction -/

@[simp] theorem sinceReset_wasReset (tr : List Shown) : sinceReset (.wasReset :: tr) = [] := by
  simp [sinceReset]

@[simp] theorem sinceReset_response (r : Response) (tr : List Shown) :
    sinceReset (.response r :: tr) = .response r :: sinceReset tr := by
  simp [sinceReset]

@[simp] theorem countsOf_nil (d : Dir) : countsOf d [] = [] := rfl

/-- A frame of the direction adds its count. -/
theorem countsOf_frame {d : Dir} {f : List Byte} (dir : frameDir f = some d) (tr : List Shown) :
    countsOf d (.response (.ok (.frame f)) :: tr) = frameCount f :: countsOf d tr := by
  simp [countsOf, framesOf, Shown.frameOf, dir]

/-- A frame of another direction adds nothing. -/
theorem countsOf_frame_of_ne {d : Dir} {f : List Byte} (dir : frameDir f ≠ some d) (tr : List Shown) :
    countsOf d (.response (.ok (.frame f)) :: tr) = countsOf d tr := by
  simp [countsOf, framesOf, Shown.frameOf, dir]

/-- A response that is no frame shows no frame. -/
theorem frameOf_response_of_not_frame (d : Dir) {r : Response} (noFrame : ∀ f, r ≠ .ok (.frame f)) :
    Shown.frameOf d (.response r) = none := by
  unfold Shown.frameOf
  split
  next f same => exact absurd (Shown.response.inj same) (noFrame f)
  next => rfl

/-- A response that is no frame adds nothing. -/
theorem countsOf_response_of_not_frame (d : Dir) {r : Response} (noFrame : ∀ f, r ≠ .ok (.frame f))
    (tr : List Shown) : countsOf d (.response r :: tr) = countsOf d tr := by
  simp [countsOf, framesOf, frameOf_response_of_not_frame d noFrame]

/-! ### What a step can do -/

/-- All a step can do, by the move it takes. -/
inductive StepEffect (s : State) : State → Prop where
  /-- No move is presented. -/
  | idle (queue : s.requests = []) : StepEffect s s
  /-- A reset event. -/
  | reset (rest : List HostMove) (queue : s.requests = .reset :: rest) :
      StepEffect s { s with requests := rest }.resetEvent
  /-- A BUILD whose payload is accepted. -/
  | build (r : Record) (rest : List HostMove) (d : Dir) (a : Apid) (pin : List Byte)
      (queue : s.requests = .operation r :: rest) (op : decode r = .build d a pin) (ok : ¬payloadRefused pin) :
      StepEffect s (({ s with requests := rest }.setSeq d (nextCount (s.seq d))).respond
        (.ok (.frame (builtFrame d a (nextCount (s.seq d)) pin))))
  /-- Any other operation, or a BUILD whose payload is refused: a response that is no frame. -/
  | answer (r : Record) (rest : List HostMove) (x : Response) (queue : s.requests = .operation r :: rest)
      (leaves : (decode r).leavesCounters = true) (noFrame : ∀ f, x ≠ .ok (.frame f)) :
      StepEffect s ({ s with requests := rest }.respond x)

/-- An operation that is no BUILD, or a BUILD whose payload is refused, writes no counter. -/
theorem leavesCounters_of_not_accepted {i : Instr}
    (h : i.opCode ≠ 0#2 ∨ ∃ d a pin, i = .build d a pin ∧ payloadRefused pin) : i.leavesCounters = true := by
  obtain notBuild | ⟨d, a, pin, rfl, bad⟩ := h
  · cases i with
    | build => exact absurd rfl notBuild
    | parse | pack | unpack => rfl
  · exact decide_eq_true bad

/-- Every step has one of the four effects. -/
theorem stepEffect_of_step {s t : State} (h : step s = .next t) : StepEffect s t := by
  match queue : s.requests with
  | [] =>
    obtain rfl : s = t := by simpa [step_idle queue] using h
    exact .idle queue
  | .reset :: rest =>
    obtain rfl : { s with requests := rest }.resetEvent = t := by simpa [step_reset queue] using h
    exact .reset rest queue
  | .operation r :: rest =>
    have run : exec (decode r) { s with requests := rest } = .next t := by simpa [step, queue] using h
    obtain ⟨d, a, pin, op, ok, -⟩ | ⟨refused, x, noFrame, answer⟩ := exec_cases (decode r) { s with requests := rest }
    · rw [op, exec_build_accepted d a ok] at run
      obtain rfl := Host.Outcome.next.inj run
      simpa using StepEffect.build r rest d a pin queue op ok
    · obtain rfl := Host.Outcome.next.inj ((answer _).symm.trans run)
      exact .answer r rest x queue (leavesCounters_of_not_accepted refused) noFrame

/-- What a step does to one counter and to the counts shown for its direction since reset: nothing, both
cleared, or the successor stored and shown. -/
theorem step_counter_cases {s t : State} (h : step s = .next t) (d : Dir) :
    (t.seq d = s.seq d ∧ countsOf d (sinceReset t.trace) = countsOf d (sinceReset s.trace)) ∨
    (t.seq d = 0 ∧ countsOf d (sinceReset t.trace) = []) ∨
    (t.seq d = nextCount (s.seq d) ∧
      countsOf d (sinceReset t.trace) = nextCount (s.seq d) :: countsOf d (sinceReset s.trace)) := by
  cases stepEffect_of_step h with
  | idle => exact .inl ⟨rfl, rfl⟩
  | reset => exact .inr (.inl ⟨by simp, by simp⟩)
  | build r rest e a pin =>
    by_cases dir : d = e
    · subst dir
      exact .inr (.inr ⟨by simp, by simp [countsOf_frame]⟩)
    · refine .inl ⟨by simp [State.setSeq_seq_of_ne _ _ dir], ?_⟩
      simp [countsOf_frame_of_ne, Ne.symm dir]
  | answer r rest x _ _ noFrame => exact .inl ⟨by simp, by simp [countsOf_response_of_not_frame d noFrame]⟩

/-! ### The obligations -/

/-- Settles O40: a step leaves a counter and its counts alone, clears both, or stores the count it shows. -/
theorem countersHoldLastCountKept : Obligations.CountersHoldLastCountKept := by
  intro s t inv h d
  obtain ⟨seq, counts⟩ | ⟨seq, counts⟩ | ⟨seq, counts⟩ := step_counter_cases h d
  · rw [seq, counts, inv d]
  · rw [seq, counts]; rfl
  · rw [seq, counts]; rfl

/-- Settles O41, by the same three cases: where a count is shown it is the successor of the number of counts
before it. -/
theorem countsFollowBuildsKept : Obligations.CountsFollowBuildsKept := by
  intro s t inv h d
  obtain ⟨expected, number⟩ := inv d
  obtain ⟨seq, counts⟩ | ⟨seq, counts⟩ | ⟨seq, counts⟩ := step_counter_cases h d
  · rw [seq, counts]
    exact ⟨expected, number⟩
  · rw [seq, counts]
    exact ⟨rfl, rfl⟩
  · rw [seq, counts, List.length_cons]
    refine ⟨?_, ?_⟩
    · rw [expectedCounts, ← nextCount_eq_ofNat number, ← expected]
    · rw [nextCount_toNat, number, Nat.mod_add_mod]

/-- Settles O10: of the four effects of a step, only the reset event and an accepted BUILD write a counter. -/
theorem onlyBuildAndResetWriteCounters : Obligations.OnlyBuildAndResetWriteCounters := by
  refine ⟨fun d => by cases d <;> rfl, fun s t d h changed => ?_⟩
  cases stepEffect_of_step h with
  | idle => exact absurd rfl changed
  | reset rest queue => exact .inl ⟨rest, queue, by simp⟩
  | build r rest e a pin queue op ok =>
    obtain rfl : d = e := by
      by_contra dir
      exact changed (by simp [State.setSeq_seq_of_ne _ _ dir])
    rw [payloadRefused_iff] at ok
    exact .inr ⟨r, rest, a, pin, queue, op, by omega, by omega, by simp [nextCount_toNat]⟩
  | answer => exact absurd (by simp) changed

/-- An operation other than BUILD shows a response that its operands alone decide, and does nothing else. -/
theorem exec_of_opCode_ne {i : Instr} (notBuild : i.opCode ≠ 0#2) : ∃ r, ∀ s, exec i s = .next (s.respond r) := by
  obtain ⟨d, a, pin, rfl, -⟩ | ⟨-, r, -, answer⟩ := exec_cases i State.reset
  · exact absurd rfl notBuild
  · exact ⟨r, answer⟩

/-- An operation leaves at least one counter as it was. -/
theorem exec_keeps_a_counter {i : Instr} {s t : State} (h : exec i s = .next t) : ∃ d, t.seq d = s.seq d := by
  obtain ⟨d, a, pin, -, -, run⟩ | ⟨-, r, -, answer⟩ := exec_cases i s
  · obtain rfl := Host.Outcome.next.inj (run.symm.trans h)
    exact ⟨d.other, by simp⟩
  · obtain rfl := Host.Outcome.next.inj ((answer s).symm.trans h)
    exact ⟨.tm, by simp⟩

/-- BUILD answers the same whatever the other counter holds, and keeps it. -/
theorem exec_build_setSeq_other (d : Dir) (a : Apid) (pin : List Byte) (s : State) (v : Count) :
    ∃ t, exec (.build d a pin) s = .next t ∧
      exec (.build d a pin) (s.setSeq d.other v) = .next (t.setSeq d.other v) := by
  by_cases bad : payloadRefused pin
  · exact ⟨_, exec_build_refused d a bad s, by rw [exec_build_refused d a bad, State.setSeq_respond]⟩
  · refine ⟨_, exec_build_accepted d a bad s, ?_⟩
    rw [exec_build_accepted d a bad, State.setSeq_other_seq, State.setSeq_other_comm, State.setSeq_respond]

/-- Settles O13: a write of one counter commutes with every operation that does not use that counter. -/
theorem countersAreIndependent : Obligations.CountersAreIndependent := by
  refine ⟨fun i s t h => ?_, exec_build_setSeq_other, fun d i s v notBuild => ?_⟩
  · obtain ⟨_ | _, kept⟩ := exec_keeps_a_counter h
    · exact .inl kept
    · exact .inr kept
  · obtain ⟨r, answer⟩ := exec_of_opCode_ne notBuild
    exact ⟨_, answer s, by rw [answer, State.setSeq_respond]⟩

/-- Settles O15: BUILD reads its own counter, and no other operation reads the state. -/
theorem nothingElseCarriesOver : Obligations.NothingElseCarriesOver := by
  intro i s₁ s₂ same
  obtain ⟨d, a, pin, rfl, ok, -⟩ | ⟨-, r, -, answer⟩ := exec_cases i s₁
  · have run₂ := exec_build_accepted d a ok s₂
    rw [← State.seq_congr same d] at run₂
    exact ⟨_, _, .ok (.frame (builtFrame d a (nextCount (s₁.seq d)) pin)), exec_build_accepted d a ok s₁, run₂,
      State.setSeq_codec_congr same d _, by simp, by simp⟩
  · exact ⟨_, _, r, answer s₁, answer s₂, same, rfl, rfl⟩

/-- Settles O9. -/
theorem resetStateHoldsZero : Obligations.ResetStateHoldsZero :=
  ⟨rfl, fun d => by cases d <;> rfl⟩

/-- Settles O42: at reset nothing has been shown and both counters are 0. -/
theorem countersMatchTraceAtReset : Obligations.CountersMatchTraceAtReset := by
  obtain ⟨-, zero⟩ := resetStateHoldsZero
  refine ⟨fun d => ?_, fun d => ⟨rfl, ?_⟩⟩
  · rw [zero d]; rfl
  · rw [zero d]; rfl

end Sys2Proof.Machine
end

section
/-! The memory primitives (spec/20_memory.md R43), the three views of a header (R44), and the step that takes an
operation: two octets are a word where they are appended, and three words are a header in the same way. -/

namespace Sys2Proof.Machine

/-! ### Two octets as a word -/

/-- Two octets appended are 256 times the first plus the second. -/
theorem octets_append_toNat (x y : Byte) : (x ++ y).toNat = x.toNat * 256 + y.toNat := by
  rw [BitVec.toNat_append, ← Nat.shiftLeft_add_eq_or_of_lt y.isLt, Nat.shiftLeft_eq]

/-- A word is its high octet appended to its low octet. -/
theorem word_octets_append (v : HeaderWord) : v.extractLsb' 8 8 ++ v.extractLsb' 0 8 = v :=
  BitVec.extractLsb'_append_extractLsb'

/-! ### MemRead and MemWrite -/

/-- MemRead appends the octet at its offset to the next. -/
theorem memRead_eq_append (b : List Byte) (off : Nat) (h : off + 2 ≤ b.length) :
    memRead b off h = b[off] ++ b[off + 1] :=
  BitVec.setWidth_append_eq_shiftLeft_setWidth_or.symm.trans (BitVec.setWidth_eq _)

/-- MemWrite stores the high octet at its offset. -/
theorem memWrite_getElem?_high {b : List Byte} {off : Nat} (h : off + 2 ≤ b.length) (v : HeaderWord) :
    (memWrite b off v)[off]? = some (v.extractLsb' 8 8) := by
  rw [memWrite, List.getElem?_set_ne (by omega), List.getElem?_set_self (by omega)]

/-- MemWrite stores the low octet after its offset. -/
theorem memWrite_getElem?_low {b : List Byte} {off : Nat} (h : off + 2 ≤ b.length) (v : HeaderWord) :
    (memWrite b off v)[off + 1]? = some (v.extractLsb' 0 8) := by
  rw [memWrite, List.getElem?_set_self (by rw [List.length_set]; omega)]

/-- MemWrite leaves every other octet. -/
theorem memWrite_getElem?_of_ne (b : List Byte) {off k : Nat} (v : HeaderWord) (high : k ≠ off)
    (low : k ≠ off + 1) : (memWrite b off v)[k]? = b[k]? := by
  rw [memWrite, List.getElem?_set_ne low.symm, List.getElem?_set_ne high.symm]

/-- MemRead gives back what MemWrite stored. -/
theorem memRead_memWrite (b : List Byte) (off : Nat) (v : HeaderWord) (h : off + 2 ≤ (memWrite b off v).length) :
    memRead (memWrite b off v) off h = v := by
  have fits : off + 2 ≤ b.length := by rwa [memWrite_length] at h
  rw [memRead_eq_append, (List.getElem_eq_iff _).mpr (memWrite_getElem?_high fits v),
    (List.getElem_eq_iff _).mpr (memWrite_getElem?_low fits v), word_octets_append]

/-! ### The views of a header -/

/-- A header is its three words appended. -/
theorem headerOfWords_eq_append (p q r : HeaderWord) : headerOfWords p q r = p ++ q ++ r := by
  have words := BitVec.setWidth_append_append_eq_shiftLeft_setWidth_or (w''' := 48) (b := p) (b' := q) (b'' := r)
  rw [BitVec.setWidth_eq] at words
  rw [words, headerOfWords, place, place, place, BitVec.shiftLeft_zero]

@[simp] theorem packetIdWord_headerOfWords (p q r : HeaderWord) : packetIdWord (headerOfWords p q r) = p := by
  rw [headerOfWords_eq_append, packetIdWord, BitVec.extractLsb'_append_eq_of_le (by omega)]
  exact BitVec.extractLsb'_append_eq_left

@[simp] theorem sequenceWordWord_headerOfWords (p q r : HeaderWord) :
    sequenceWordWord (headerOfWords p q r) = q := by
  rw [headerOfWords_eq_append, sequenceWordWord, BitVec.extractLsb'_append_eq_of_le (by omega)]
  exact BitVec.extractLsb'_append_eq_right

@[simp] theorem dataLengthWord_headerOfWords (p q r : HeaderWord) : dataLengthWord (headerOfWords p q r) = r := by
  rw [headerOfWords_eq_append, dataLengthWord]
  exact BitVec.extractLsb'_append_eq_right

/-- The three words of a header put together give it back. -/
@[simp] theorem headerOfWords_words (h : Header) :
    headerOfWords (packetIdWord h) (sequenceWordWord h) (dataLengthWord h) = h := by
  rw [headerOfWords_eq_append, packetIdWord, sequenceWordWord, dataLengthWord,
    BitVec.extractLsb'_append_extractLsb'_eq_extractLsb' (start₂ := 32) (start₁ := 16) rfl]
  exact BitVec.extractLsb'_append_extractLsb'

/-- The header of six octets is the header of their big-endian pairs. -/
theorem headerOfOctets_eq_headerOfWords (h0 h1 h2 h3 h4 h5 : Byte) :
    headerOfOctets h0 h1 h2 h3 h4 h5 = headerOfWords (h0 ++ h1) (h2 ++ h3) (h4 ++ h5) := by
  rw [← readHeader_cons h0 h1 h2 h3 h4 h5 [] (by simp), readHeader]
  simp only [memRead_eq_append]
  rfl

/-- Bits cut out of bits cut out of a word are bits of that word. -/
theorem extractLsb'_extractLsb'_of_add_le {w n m i : Nat} (x : BitVec w) (j : Nat) (inside : i + m ≤ n) :
    (x.extractLsb' j n).extractLsb' i m = x.extractLsb' (j + i) m := by
  ext k hk
  simp [show i + k < n by omega, Nat.add_assoc]

/-- The octets of a header are those of its words, the high octet of each first. -/
theorem octetsOfHeader_eq_wordOctets (h : Header) : octetsOfHeader h =
    [(packetIdWord h).extractLsb' 8 8, (packetIdWord h).extractLsb' 0 8,
      (sequenceWordWord h).extractLsb' 8 8, (sequenceWordWord h).extractLsb' 0 8,
      (dataLengthWord h).extractLsb' 8 8, (dataLengthWord h).extractLsb' 0 8] := by
  simp [octetsOfHeader, packetIdWord, sequenceWordWord, dataLengthWord, extractLsb'_extractLsb'_of_add_le]

/-- The octets of a header made of six octets are those six. -/
@[simp] theorem octetsOfHeader_headerOfOctets (h0 h1 h2 h3 h4 h5 : Byte) :
    octetsOfHeader (headerOfOctets h0 h1 h2 h3 h4 h5) = [h0, h1, h2, h3, h4, h5] := by
  rw [headerOfOctets_eq_headerOfWords, octetsOfHeader_eq_wordOctets]
  simp only [packetIdWord_headerOfWords, sequenceWordWord_headerOfWords, dataLengthWord_headerOfWords,
    BitVec.extractLsb'_append_eq_left, BitVec.extractLsb'_append_eq_right]

/-! ### The step that takes an operation -/

/-- A step that takes an operation. -/
theorem step_operation {s : State} {r : Record} {rest : List HostMove} (h : s.requests = .operation r :: rest) :
    step s = exec (decode r) { s with requests := rest } := by simp [step, h]

/-! ### The obligations -/

/-- Settles O17: a read is two octets appended, and a write stores the two octets a word is made of. -/
theorem memoryPrimitivesAreBigEndian : Obligations.MemoryPrimitivesAreBigEndian := by
  refine ⟨fun b off h => ?_, fun b off v h => ⟨memWrite_getElem?_high h v, memWrite_getElem?_low h v⟩,
    fun b off v k high low => memWrite_getElem?_of_ne b v high low, memRead_memWrite⟩
  rw [memRead_eq_append, octets_append_toNat]

/-- Settles O18: the header of six octets is that of three words, each two octets appended. -/
theorem headerViewsAgree : Obligations.HeaderViewsAgree := by
  refine ⟨fun h0 h1 h2 h3 h4 h5 => ⟨octetsOfHeader_headerOfOctets h0 h1 h2 h3 h4 h5, ?_⟩, headerOfWords_words,
    fun h => ⟨rfl, rfl, rfl⟩⟩
  rw [headerOfOctets_eq_headerOfWords, packetIdWord_headerOfWords, sequenceWordWord_headerOfWords,
    dataLengthWord_headerOfWords]
  exact ⟨octets_append_toNat h0 h1, octets_append_toNat h2 h3, octets_append_toNat h4 h5⟩

/-- Settles O6: the move at the head of the queue alone decides what a step runs. -/
theorem stepRunsDecodedOperation : Obligations.StepRunsDecodedOperation := by
  rintro s r rest i queue rfl -
  exact step_operation queue

end Sys2Proof.Machine
end

section
/-! Command records and their octets (spec/30_encoding.md R73, R74): what is cut out of a word that fields were
placed in, the layout of each operation's record, and the octets as the cuts of one 56-bit word. -/

namespace Sys2Proof.Machine

/-! ### Fields placed in a word and cut out again -/

/-- A placed field is cut out whole. -/
theorem extractLsb'_place_self {w pos n : Nat} (v : BitVec n) (fits : pos + n ≤ w) :
    (place w pos v).extractLsb' pos n = v := by
  apply BitVec.eq_of_getLsbD_eq
  intro k hk
  simp [hk, show pos + k < w by omega]

/-- Bits that a placed field does not reach are 0. -/
theorem extractLsb'_place_of_disjoint {w pos n i m : Nat} (v : BitVec n) (apart : i + m ≤ pos ∨ pos + n ≤ i) :
    (place w pos v).extractLsb' i m = 0 := by
  apply BitVec.eq_of_getLsbD_eq
  intro k hk
  have beyond : pos ≤ i + k → v.getLsbD (i + k - pos) = false := fun _ => BitVec.getLsbD_of_ge _ _ (by omega)
  simp [hk]
  exact fun _ => beyond

/-- A field put back above the bits below it gives the bits up to its end. -/
theorem place_extractLsb'_or_setWidth {m : Nat} (w pos n : Nat) (c : BitVec m) :
    place w pos (c.extractLsb' pos n) ||| (c.setWidth pos).setWidth w = (c.setWidth (pos + n)).setWidth w := by
  apply BitVec.eq_of_getLsbD_eq
  intro k hk
  by_cases below : k < pos
  · simp [hk, below, show k < pos + n by omega]
  · simp [hk, below, show k - pos < n ↔ k < pos + n by omega, show pos + (k - pos) = k by omega]

/-! ### The select code, and decode after encode -/

/-- The select code of a record is that of the operation it decodes to. -/
theorem opCode_decode (r : Record) : (decode r).opCode = r.control.extractLsb' 0 2 := by
  apply BitVec.eq_of_getLsbD_eq
  intro k hk
  rw [decode]
  split <;> rename_i high low <;>
    (interval_cases k <;> simp [Instr.opCode, -BitVec.getLsbD_eq_getElem, high, low])

/-- Each operation's record carries its select code. -/
theorem extract_opCode_encode (i : Instr) : (encode i).control.extractLsb' 0 2 = i.opCode := by
  cases i with
  | build dir apid pin => exact Laws.EncodesOpCode.build dir apid pin
  | parse bin => exact Laws.EncodesOpCode.parse bin
  | pack fields => exact Laws.EncodesOpCode.pack fields
  | unpack header => exact Laws.EncodesOpCode.unpack header

/-- The two bits that `decode` selects an operation by. -/
theorem selectBits_encode (i : Instr) :
    (encode i).control.getLsbD 1 = i.opCode.getLsbD 1 ∧ (encode i).control.getLsbD 0 = i.opCode.getLsbD 0 := by
  rw [← extract_opCode_encode i]
  simp [-BitVec.getLsbD_eq_getElem]

/-- An operation answers a next state. -/
theorem exec_completes (i : Instr) (s : State) : ∃ t, exec i s = .next t := by
  obtain ⟨_, _, _, -, -, run⟩ | ⟨-, r, -, answer⟩ := exec_cases i s
  · exact ⟨_, run⟩
  · exact ⟨_, answer s⟩

@[simp] theorem Dir.ofBit_bit (d : Dir) : Dir.ofBit d.bit = d := by cases d <;> rfl

/-- The fields of a PACK record are read back from where they were placed. -/
theorem fieldsOfControl_encode (f : HeaderFields) : fieldsOfControl (encode (.pack f)).control = f := by
  simp [fieldsOfControl, encode, extractLsb'_place_self, extractLsb'_place_of_disjoint, BitVec.extractLsb'_or]

/-- Every operand is read back from where its record has it. -/
theorem decode_encode (i : Instr) : decode (encode i) = i := by
  obtain ⟨high, low⟩ := selectBits_encode i
  rw [decode, high, low]
  cases i with
  | build dir apid pin =>
    simp [Instr.opCode, encode, extractLsb'_place_self, extractLsb'_place_of_disjoint, BitVec.extractLsb'_or]
  | parse bin => simp [Instr.opCode, encode]
  | pack f => simp [Instr.opCode, fieldsOfControl_encode]
  | unpack h =>
    simp [Instr.opCode, encode, extractLsb'_place_self, extractLsb'_place_of_disjoint, BitVec.extractLsb'_or]

/-! ### The octets of a record -/

/-- The seven control octets cut from one 56-bit word are read as its low 50 bits, and refused when one of the
other six is set. -/
theorem recordOfOctets_cuts (c : BitVec 56) (buffer : List Byte) :
    recordOfOctets (c.extractLsb' 0 8 :: c.extractLsb' 8 8 :: c.extractLsb' 16 8 :: c.extractLsb' 24 8 ::
      c.extractLsb' 32 8 :: c.extractLsb' 40 8 :: c.extractLsb' 48 8 :: buffer)
      = if c.extractLsb' 50 6 = 0#6 then .ok ⟨c.setWidth 50, buffer⟩ else .error .controlTooWide := by
  have lowest : place 50 0 (c.extractLsb' 0 8) = (c.setWidth 8).setWidth 50 := by
    rw [place, BitVec.shiftLeft_zero, BitVec.setWidth_eq_extractLsb' (w := 8) (by omega)]
  simp only [recordOfOctets, extractLsb'_extractLsb'_of_add_le, Nat.reduceAdd, Nat.reduceLeDiff, BitVec.or_assoc,
    lowest, place_extractLsb'_or_setWidth, BitVec.setWidth_eq]

/-- The octets of a record are read back as that record. -/
theorem recordOfOctets_octets (r : Record) : recordOfOctets r.octets = .ok r := by
  have cuts := recordOfOctets_cuts (r.control.setWidth 56) r.buffer
  have top : (r.control.setWidth 56).extractLsb' 48 8 = (r.control.extractLsb' 48 2).setWidth 8 := by
    apply BitVec.eq_of_getLsbD_eq
    intro k hk
    by_cases inside : k < 2
    · simp [hk, inside, show 48 + k < 56 by omega]
    · simp [hk, inside, BitVec.getLsbD_of_ge r.control (48 + k) (by omega)]
  have above : (r.control.setWidth 56).extractLsb' 50 6 = 0#6 := by
    apply BitVec.eq_of_getLsbD_eq
    intro k hk
    simp
  simpa [Record.octets, BitVec.extractLsb'_setWidth_of_le, top, above] using cuts

/-- Octet 6 sets no bit above bit 49 of the control word exactly when it is below 4. -/
theorem extractLsb'_two_six_eq_zero_iff (b : Byte) : b.extractLsb' 2 6 = 0#6 ↔ b.toNat < 4 := by
  have := b.isLt
  rw [← BitVec.toNat_inj, BitVec.extractLsb'_toNat, Nat.shiftRight_eq_div_pow, BitVec.toNat_ofNat]
  omega

/-- Every string of octets is too short, too wide, or a record, and octet 6 decides which. -/
theorem decodeOctets_cases (bs : List Byte) :
    (bs[6]? = none ∧ decodeOctets bs = .error .controlTooShort) ∨
    (∃ b6, bs[6]? = some b6 ∧ 4 ≤ b6.toNat ∧ decodeOctets bs = .error .controlTooWide) ∨
    (∃ b6, bs[6]? = some b6 ∧ b6.toNat < 4 ∧ ∃ i, decodeOctets bs = .ok i) := by
  rw [decodeOctets]
  unfold recordOfOctets
  split
  next b0 b1 b2 b3 b4 b5 b6 buffer =>
    split
    next zero => exact .inr (.inr ⟨b6, rfl, (extractLsb'_two_six_eq_zero_iff b6).mp zero, _, rfl⟩)
    next nonzero => exact .inr (.inl ⟨b6, rfl, by rw [extractLsb'_two_six_eq_zero_iff] at nonzero; omega, rfl⟩)
  next noSeven =>
    refine .inl ⟨?_, rfl⟩
    obtain short | ⟨b0, b1, b2, b3, b4, b5, rest, rfl⟩ := short_or_header bs
    · exact List.getElem?_eq_none (by omega)
    · cases rest with
      | nil => rfl
      | cons b6 buffer => exact absurd rfl (noSeven b0 b1 b2 b3 b4 b5 b6 buffer)

/-! ### Table words -/

/-- An octet of a number is eight bits of it. -/
theorem extractLsb'_ofNat_eq_ofNat_div {w : Nat} (v pos : Nat) (fits : pos + 8 ≤ w) :
    (BitVec.ofNat w v).extractLsb' pos 8 = BitVec.ofNat 8 (v / 2 ^ pos) := by
  apply BitVec.eq_of_getLsbD_eq
  intro k hk
  simp [-BitVec.getLsbD_eq_getElem, BitVec.getLsbD_ofNat, hk, show pos + k < w by omega, Nat.testBit_div_two_pow,
    Nat.add_comm k pos]

/-- A number laid out in seven octets or more begins with the cuts of its low 56 bits. -/
theorem layOctets_eq_cuts (v k : Nat) : layOctets (7 + k) v =
    (BitVec.ofNat 56 v).extractLsb' 0 8 :: (BitVec.ofNat 56 v).extractLsb' 8 8 ::
      (BitVec.ofNat 56 v).extractLsb' 16 8 :: (BitVec.ofNat 56 v).extractLsb' 24 8 ::
      (BitVec.ofNat 56 v).extractLsb' 32 8 :: (BitVec.ofNat 56 v).extractLsb' 40 8 ::
      (BitVec.ofNat 56 v).extractLsb' 48 8 :: (layOctets (7 + k) v).drop 7 := by
  rw [Nat.add_comm 7 k]
  simp [layOctets, extractLsb'_ofNat_eq_ofNat_div, Nat.div_div_eq_div_mul]

/-- The record read from a table word's octets is the one a fetch of the word presents. -/
theorem eq_tableRecord_of_recordOfOctets {nbits w : Nat} {r : Record}
    (read : recordOfOctets (tableOctets nbits w) = .ok r) : r = tableRecord nbits w := by
  obtain ⟨k, size⟩ := Nat.exists_eq_add_of_le (Nat.le_max_left 7 (nbits / 8))
  rw [tableOctets, size, layOctets_eq_cuts, recordOfOctets_cuts] at read
  split at read
  next =>
    obtain rfl := Except.ok.inj read
    rw [tableRecord, tableOctets, size, BitVec.setWidth_ofNat_of_le (by omega)]
  next => cases read

/-- A table word that the decoder reads is presented as a record of the same operation. -/
theorem decode_tableRecord {nbits w : Nat} {i : Instr} (read : decodeTableWord nbits w = some i) :
    decode (tableRecord nbits w) = i := by
  unfold decodeTableWord decodeOctets at read
  cases record : recordOfOctets (tableOctets nbits w) with
  | error e => simp [record, Except.map] at read
  | ok r =>
    obtain rfl := eq_tableRecord_of_recordOfOctets record
    simpa [record, Except.map] using read

/-! ### The obligations -/

/-- Settles O2: every operand is cut out whole where it was placed, and so is every octet of the control word. -/
theorem decodeEncodeRoundTrip : Obligations.DecodeEncodeRoundTrip := by
  refine fun i => ⟨decode_encode i, ?_⟩
  rw [decodeOctets, encodeOctets, recordOfOctets_octets, Except.map, decode_encode]

/-- Settles O3: octet 6 is missing, 4 or more, or below 4, and each answer belongs to one of these. -/
theorem octetsRefusedExactlyWhen : Obligations.OctetsRefusedExactlyWhen := by
  simp only [Obligations.OctetsRefusedExactlyWhen, ← forall_and]
  intro bs
  have short : bs.length < 7 ↔ bs[6]? = none := by rw [List.getElem?_eq_none_iff]; omega
  rw [short]
  obtain ⟨octet, answer⟩ | ⟨b6, octet, wide, answer⟩ | ⟨b6, octet, narrow, i, answer⟩ := decodeOctets_cases bs
  · simp [octet, answer]
  · simp [octet, answer, wide]
  · simp [octet, answer, narrow]

/-- Settles O4: `decode` goes by the two low bits of the control word, and every operation completes. -/
theorem everySelectCodeIsAssigned : Obligations.EverySelectCodeIsAssigned := by
  refine ⟨opCode_decode, fun op => ⟨decode ⟨op.setWidth 50, []⟩, ?_⟩, fun s r rest queue => ?_⟩
  · rw [opCode_decode, BitVec.extractLsb'_setWidth_of_le (by omega), BitVec.extractLsb'_eq_self]
  · rw [step_operation queue]
    exact exec_completes _ _

/-- Settles O5: the presented record decodes to what the decoder reads from the table word's octets. -/
theorem presentedTableWordRuns : Obligations.PresentedTableWordRuns := by
  intro s nbits w i read
  rw [step_operation (s := s.withFetchWord nbits w) rfl, decode_tableRecord read, State.withFetchWord]

/-- Settles O1: five closed records, evaluated. -/
theorem writtenOutRecordsDecode : Obligations.WrittenOutRecordsDecode :=
  ⟨by decide, by decide, by decide, by decide, by decide⟩

end Sys2Proof.Machine
end

section
/-! The bits of a header that two fields share or no field has (spec/30_encoding.md R66, R67), the header values
BUILD and PACK emit (R80), and PARSE of a buffer as six header octets and the rest (R77). -/

namespace Sys2Proof.Machine

/-! ### Cuts of a header -/

/-- The low bits of a word that a field was placed in. -/
theorem extractLsb'_zero_place {w pos n m : Nat} (v : BitVec n) (narrower : m ≤ w) :
    (place w pos v).extractLsb' 0 m = place m pos v := by
  apply BitVec.eq_of_getLsbD_eq
  intro k hk
  simp [-BitVec.getLsbD_eq_getElem, hk, show k < w by omega]

/-- A field placed at bit 0 is cut as it stands. -/
theorem extractLsb'_place_zero {w n i m : Nat} (v : BitVec n) (inside : i + m ≤ w) :
    (place w 0 v).extractLsb' i m = v.extractLsb' i m := by
  rw [place, BitVec.shiftLeft_zero, BitVec.extractLsb'_setWidth_of_le inside]

/-- The unpacked fields as cuts of the header (R71): bit 42 is cut twice, bit 44 never. -/
theorem unpackHeader_eq_cuts (h : Header) : unpackHeader h =
    { version := h.extractLsb' 45 3
      packetType := h.extractLsb' 43 1
      secondaryHeaderFlag := h.extractLsb' 42 1
      apid := h.extractLsb' 32 11
      sequenceFlags := h.extractLsb' 30 2
      sequenceCount := h.extractLsb' 16 14
      dataLength := h.extractLsb' 0 16 } := by
  simp [unpackHeader_eq, packetIdWord, sequenceWordWord, dataLengthWord, extractLsb'_extractLsb'_of_add_le]

/-- The flag is the top bit of the unpacked APID (R66). -/
theorem unpackHeader_flag_eq_apid_bit (h : Header) :
    (unpackHeader h).secondaryHeaderFlag = (unpackHeader h).apid.extractLsb' 10 1 := by
  rw [unpackHeader_eq_cuts]
  exact (extractLsb'_extractLsb'_of_add_le (n := 11) (m := 1) (i := 10) h 32 (by omega)).symm

/-- The top bit of an APID tells whether it is 1024 or more. -/
theorem apid_bit_eq_one_iff (a : Apid) : a.extractLsb' 10 1 = 1 ↔ 1024 ≤ a.toNat := by
  have := a.isLt
  rw [← BitVec.toNat_inj, BitVec.extractLsb'_toNat, Nat.shiftRight_eq_div_pow]
  simp
  omega

/-- An APID below 1024 with its top bit set is 1024 higher (R66). -/
theorem apid_or_place_flag {a : Apid} (low : a.toNat < 1024) : a ||| place 11 10 1#1 = a + 1024 := by
  have clear : a.getLsbD 10 = false := Nat.testBit_lt_two_pow low
  have apart : a &&& BitVec.twoPow 11 10 = 0#11 := by
    rw [BitVec.and_twoPow, clear]
    rfl
  exact (BitVec.add_eq_or_of_and_eq_zero a _ apart).symm

@[simp] theorem packetIdWord_packHeader (f : HeaderFields) : packetIdWord (packHeader f) = assemblePacketId f :=
  packetIdWord_headerOfWords _ _ _

@[simp] theorem sequenceWordWord_packHeader (f : HeaderFields) :
    sequenceWordWord (packHeader f) = assembleSequenceWord f :=
  sequenceWordWord_headerOfWords _ _ _

@[simp] theorem dataLengthWord_packHeader (f : HeaderFields) : dataLengthWord (packHeader f) = f.dataLength :=
  dataLengthWord_headerOfWords _ _ _

/-- `packetId` is four placed fields (R68). -/
theorem assemblePacketId_eq_place (f : HeaderFields) : assemblePacketId f =
    place 16 13 f.version ||| place 16 11 f.packetType ||| place 16 10 f.secondaryHeaderFlag ||| place 16 0 f.apid :=
  rfl

/-- `sequenceWord` is two placed fields (R69). -/
theorem assembleSequenceWord_eq_place (f : HeaderFields) : assembleSequenceWord f =
    place 16 14 f.sequenceFlags ||| place 16 0 f.sequenceCount :=
  rfl

/-- Header bit 42 of a packed header is the flag or the top bit of the APID (R66). -/
theorem packHeader_extract_sharedBit (f : HeaderFields) :
    (packHeader f).extractLsb' 42 1 = (f.secondaryHeaderFlag ||| f.apid.extractLsb' 10 1) := by
  have cut := extractLsb'_extractLsb'_of_add_le (n := 16) (m := 1) (i := 10) (packHeader f) 32 (by omega)
  rw [← cut, ← packetIdWord, packetIdWord_packHeader, assemblePacketId_eq_place]
  simp [BitVec.extractLsb'_or, extractLsb'_place_self, extractLsb'_place_of_disjoint, extractLsb'_place_zero]

/-- The APID of a packed header has the flag placed in its top bit (R66). -/
theorem unpackHeader_packHeader_apid (f : HeaderFields) :
    (unpackHeader (packHeader f)).apid = (f.apid ||| place 11 10 f.secondaryHeaderFlag) := by
  rw [unpackHeader_eq, packetIdWord_packHeader, assemblePacketId_eq_place]
  simp [BitVec.extractLsb'_or, extractLsb'_place_self, extractLsb'_place_of_disjoint, extractLsb'_zero_place,
    BitVec.or_comm]

/-- Header bit 44 of a packed header is 0 (R67). -/
theorem packHeader_getLsbD_unassigned (f : HeaderFields) : (packHeader f).getLsbD 44 = false := by
  rw [packHeader_getLsbD, assemblePacketId_getLsbD]
  simp

/-- No field of an unpacked header comes from bit 44 (R67). -/
theorem unpackHeader_xor_unassigned (h : Header) : unpackHeader (h ^^^ (1#48 <<< 44)) = unpackHeader h := by
  have bit44 : 1#48 <<< 44 = place 48 44 1#1 := rfl
  simp [unpackHeader_eq_cuts, bit44, BitVec.extractLsb'_xor, extractLsb'_place_of_disjoint]

/-- Reassembled from unpacked fields, `packetId` is as it was but for the unassigned bit. -/
theorem assemblePacketId_unpackHeader (h : Header) :
    assemblePacketId (unpackHeader h) = packetIdWord h &&& ~~~(1#16 <<< 12) := by
  rw [unpackHeader_eq]
  apply BitVec.eq_of_getLsbD_eq
  intro k hk
  rw [assemblePacketId_getLsbD]
  interval_cases k <;> simp

/-- Reassembled from unpacked fields, `sequenceWord` is as it was. -/
theorem assembleSequenceWord_unpackHeader (h : Header) :
    assembleSequenceWord (unpackHeader h) = sequenceWordWord h := by
  rw [unpackHeader_eq]
  apply BitVec.eq_of_getLsbD_eq
  intro k hk
  rw [assembleSequenceWord_getLsbD]
  interval_cases k <;> simp

/-- PACK of unpacked fields gives the header back with bit 44 clear. -/
theorem packHeader_unpackHeader (h : Header) : packHeader (unpackHeader h) = h &&& ~~~(1#48 <<< 44) := by
  rw [← headerOfWords_words (h &&& ~~~(1#48 <<< 44)), packHeader, assemblePacketId_unpackHeader,
    assembleSequenceWord_unpackHeader]
  congr 1
  · rw [packetIdWord, packetIdWord, BitVec.extractLsb'_and]
    rfl
  · rw [sequenceWordWord, sequenceWordWord, BitVec.extractLsb'_and]
    exact BitVec.and_allOnes.symm
  · rw [dataLengthWord, BitVec.extractLsb'_and]
    exact BitVec.and_allOnes.symm

/-- A header with bit 44 clear is PACK of its own fields. -/
theorem packHeader_unpackHeader_of_clear {h : Header} (clear : h.getLsbD 44 = false) :
    packHeader (unpackHeader h) = h := by
  rw [packHeader_unpackHeader]
  have bit44 : 1#48 <<< 44 = BitVec.twoPow 48 44 := rfl
  rw [bit44]
  apply BitVec.eq_of_getLsbD_eq
  intro k hk
  by_cases here : k = 44
  · rw [BitVec.getLsbD_and, here, clear, Bool.false_and]
  · simp [-BitVec.getLsbD_eq_getElem, BitVec.getLsbD_twoPow, hk, Ne.symm here]

/-! ### The frame BUILD answers -/

/-- The octets of a word are its number in base 256. -/
theorem word_octets_toNat (v : HeaderWord) :
    (v.extractLsb' 8 8).toNat * 256 + (v.extractLsb' 0 8).toNat = v.toNat := by
  rw [← octets_append_toNat, word_octets_append]

/-- The first word of a built frame as a number: direction above APID (R105). -/
theorem assemblePacketId_buildFields_toNat (d : Dir) (a : Apid) (c : Count) (pin : List Byte) :
    (assemblePacketId (buildFields d a c pin)).toNat = d.bit.toNat * 2048 + a.toNat := by
  have word : assemblePacketId (buildFields d a c pin) = (d.bit ++ a).setWidth 16 := by
    rw [BitVec.setWidth_append_eq_shiftLeft_setWidth_or, assemblePacketId_eq_place]
    simp [buildFields, place]
  rw [word, BitVec.toNat_setWidth_of_le (by omega), BitVec.toNat_append, ← Nat.shiftLeft_add_eq_or_of_lt a.isLt,
    Nat.shiftLeft_eq]

/-- The top two bits of `sequenceWord` are `sequenceFlags` (R69). -/
theorem assembleSequenceWord_extract_flags (f : HeaderFields) :
    (assembleSequenceWord f).extractLsb' 14 2 = f.sequenceFlags := by
  rw [assembleSequenceWord_eq_place]
  simp [BitVec.extractLsb'_or, extractLsb'_place_self, extractLsb'_place_of_disjoint]

/-- A built frame begins with the octets of its first two header words. -/
theorem builtFrame_eq_wordOctets (d : Dir) (a : Apid) (c : Count) (pin : List Byte) :
    ∃ rest, builtFrame d a c pin =
      (assemblePacketId (buildFields d a c pin)).extractLsb' 8 8 ::
      (assemblePacketId (buildFields d a c pin)).extractLsb' 0 8 ::
      (assembleSequenceWord (buildFields d a c pin)).extractLsb' 8 8 :: rest := by
  rw [builtFrame, octetsOfHeader_eq_wordOctets, packetIdWord_packHeader, sequenceWordWord_packHeader]
  exact ⟨_, rfl⟩

/-- An accepted BUILD shows the frame built with the successor. -/
theorem exec_build_shows (d : Dir) (a : Apid) {pin : List Byte} (ok : ¬payloadRefused pin) (s : State) :
    ∃ t, exec (.build d a pin) s = .next t ∧
      t.trace = .response (.ok (.frame (builtFrame d a (nextCount (s.seq d)) pin))) :: s.trace :=
  ⟨_, exec_build_accepted d a ok s, by simp⟩

/-- The header BUILD packs gives the whole APID operand back: its flag operand is 0 (R66). -/
theorem unpackHeader_builtHeader_apid (d : Dir) (a : Apid) (c : Count) (pin : List Byte) :
    (unpackHeader (packHeader (buildFields d a c pin))).apid = a := by
  rw [unpackHeader_packHeader_apid]
  simp [buildFields, place]

/-- A BUILD that shows a frame shows the frame built with the successor. -/
theorem eq_builtFrame_of_shown {d : Dir} {a : Apid} {pin frame : List Byte} {s t : State}
    (run : exec (.build d a pin) s = .next t) (shown : t.trace = .response (.ok (.frame frame)) :: s.trace) :
    frame = builtFrame d a (nextCount (s.seq d)) pin := by
  by_cases bad : payloadRefused pin
  · rw [exec_build_refused d a bad] at run
    obtain rfl := Host.Outcome.next.inj run
    simp at shown
  · rw [exec_build_accepted d a bad] at run
    obtain rfl := Host.Outcome.next.inj run
    simpa using shown.symm

/-! ### PARSE of a header's octets and the rest -/

/-- A buffer is shorter than a header, or a header's octets and the rest. -/
theorem short_or_octetsOfHeader (b : List Byte) :
    b.length < 6 ∨ ∃ h rest, b = octetsOfHeader h ++ rest := by
  obtain short | ⟨h0, h1, h2, h3, h4, h5, rest, rfl⟩ := short_or_header b
  · exact .inl short
  · exact .inr ⟨headerOfOctets h0 h1 h2 h3 h4 h5, rest, by simp⟩

/-- The header read from a buffer that begins with a header's octets is that header. -/
theorem readHeader_octetsOfHeader (h : Header) (rest : List Byte)
    (len : Config.hdrLen ≤ (octetsOfHeader h ++ rest).length) : readHeader (octetsOfHeader h ++ rest) len = h := by
  simp only [octetsOfHeader_eq_wordOctets, List.cons_append, List.nil_append, readHeader_cons,
    headerOfOctets_eq_headerOfWords, word_octets_append, headerOfWords_words]

/-- The octets cut from a header put together give it back. -/
theorem headerOfOctets_cuts (h : Header) :
    headerOfOctets (h.extractLsb' 40 8) (h.extractLsb' 32 8) (h.extractLsb' 24 8) (h.extractLsb' 16 8)
      (h.extractLsb' 8 8) (h.extractLsb' 0 8) = h :=
  (readHeader_cons _ _ _ _ _ _ [] (by simp)).symm.trans (readHeader_octetsOfHeader h [] (by simp [octetsOfHeader]))

/-- PARSE of a buffer shorter than a header. -/
theorem parseResponse_of_short {bin : List Byte} (short : bin.length < 6) :
    parseResponse bin = .failed .headerTooShort :=
  dif_pos short

/-- PARSE of a header's octets and the rest: the declared length alone decides (R77, R143). -/
theorem parseResponse_octetsOfHeader (h : Header) (rest : List Byte) :
    parseResponse (octetsOfHeader h ++ rest) =
      if rest.length ≤ (unpackHeader h).dataLength.toNat then .failed .truncatedPayload
      else .ok (.packet ⟨unpackHeader h, rest.take ((unpackHeader h).dataLength.toNat + 1)⟩) := by
  have size : (octetsOfHeader h ++ rest).length = 6 + rest.length := by simp [octetsOfHeader]; omega
  have payload (n : Nat) : slice (octetsOfHeader h ++ rest) 6 (6 + n + 1) = rest.take (n + 1) := by
    simp [slice, octetsOfHeader, show 6 + n + 1 = n + 1 + 6 by omega]
  have truncated (n : Nat) : 6 + rest.length < Config.hdrLen + n + 1 ↔ rest.length ≤ n := by
    rw [Config.hdrLen]
    omega
  rw [parseResponse, dif_neg (by simp [size])]
  simp only [readHeader_octetsOfHeader, payload, payloadTruncated, size, truncated]

/-- PARSE shows its response and does nothing else. -/
theorem exec_parse (bin : List Byte) (s : State) :
    exec (.parse bin) s = .next (s.respond (parseResponse bin)) :=
  execParse_eq bin s

/-- Where PARSE answers a packet, the buffer is a header's octets and at least the payload it declares (R77). -/
theorem eq_octetsOfHeader_of_parseResponse {bin : List Byte} {p : SpacePacket}
    (answer : parseResponse bin = .ok (.packet p)) :
    ∃ h rest, bin = octetsOfHeader h ++ rest ∧ p.header = unpackHeader h ∧
      p.header.dataLength.toNat < rest.length ∧ p.payload = rest.take (p.header.dataLength.toNat + 1) := by
  obtain short | ⟨h, rest, rfl⟩ := short_or_octetsOfHeader bin
  · rw [parseResponse_of_short short] at answer
    cases answer
  · rw [parseResponse_octetsOfHeader] at answer
    split at answer
    next => cases answer
    next long =>
      cases answer
      exact ⟨h, rest, rfl, rfl, Nat.lt_of_not_le long, rfl⟩

/-- PARSE of a built frame gives the header back unpacked, and the payload (R133). -/
theorem parseResponse_builtFrame (d : Dir) (a : Apid) (c : Count) {pin : List Byte} (ok : ¬payloadRefused pin) :
    parseResponse (builtFrame d a c pin)
      = .ok (.packet ⟨unpackHeader (packHeader (buildFields d a c pin)), pin⟩) := by
  rw [payloadRefused_iff] at ok
  have declared : (unpackHeader (packHeader (buildFields d a c pin))).dataLength.toNat = pin.length - 1 := by
    rw [unpackHeader, dataLengthWord_packHeader, buildFields, BitVec.toNat_ofNat]
    omega
  rw [builtFrame, parseResponse_octetsOfHeader, declared, if_neg (by omega), List.take_of_length_le (by omega)]

/-- PARSE of a built frame shows that packet and does nothing else. -/
theorem exec_parse_builtFrame (d : Dir) (a : Apid) (c : Count) {pin : List Byte} (ok : ¬payloadRefused pin)
    (s : State) : exec (.parse (builtFrame d a c pin)) s
      = .next (s.respond (.ok (.packet ⟨unpackHeader (packHeader (buildFields d a c pin)), pin⟩))) := by
  rw [exec_parse, parseResponse_builtFrame d a c ok]

/-- Flipping header bit 44 flips bit 4 of the first octet. -/
theorem octetsOfHeader_xor_unassigned (h : Header) :
    octetsOfHeader (h ^^^ (1#48 <<< 44)) = (h.extractLsb' 40 8 ^^^ 0x10) :: (octetsOfHeader h).tail := by
  simp [octetsOfHeader, BitVec.extractLsb'_xor]

/-- PARSE does not read bit 4 of the first octet (R67). -/
theorem parseResponse_xor_unassigned (h0 : Byte) (rest : List Byte) :
    parseResponse ((h0 ^^^ 0x10) :: rest) = parseResponse (h0 :: rest) := by
  obtain short | ⟨h, payload, split⟩ := short_or_octetsOfHeader (h0 :: rest)
  · rw [parseResponse_of_short short, parseResponse_of_short (by simpa using short)]
  · have flipped : (h0 ^^^ 0x10) :: rest = octetsOfHeader (h ^^^ (1#48 <<< 44)) ++ payload := by
      rw [octetsOfHeader_xor_unassigned]
      obtain ⟨rfl, rfl⟩ := List.cons.inj split
      rfl
    rw [flipped, split, parseResponse_octetsOfHeader, parseResponse_octetsOfHeader, unpackHeader_xor_unassigned]

/-! ### The obligations -/

/-- Settles O24: the two cuts of the shared bit, and PARSE of the frame an accepted BUILD answers. -/
theorem flagAndApidShareABit : Obligations.FlagAndApidShareABit := by
  refine ⟨packHeader_extract_sharedBit, fun h => ?_, fun d a pin s least most => ?_, fun f flag low => ?_⟩
  · rw [← unpackHeader_flag_eq_apid_bit, unpackHeader_eq_cuts]
    exact ⟨rfl, rfl⟩
  · have ok : ¬payloadRefused pin := by rw [payloadRefused_iff]; omega
    obtain ⟨t, run, shown⟩ := exec_build_shows d a ok s
    refine ⟨t, _, _, _, run, shown, exec_parse_builtFrame d a _ ok t, rfl, unpackHeader_builtHeader_apid d a _ pin,
      fun large => ?_⟩
    rw [unpackHeader_flag_eq_apid_bit, unpackHeader_builtHeader_apid]
    exact (apid_bit_eq_one_iff a).mpr large
  · rw [unpackHeader_packHeader_apid, flag]
    exact apid_or_place_flag low

/-- Settles O25: header bit 44, which is bit 4 of the first octet, is packed as 0 and cut by no field. -/
theorem unassignedBitIsIgnored : Obligations.UnassignedBitIsIgnored := by
  refine ⟨packHeader_getLsbD_unassigned, fun d a pin s t h0 rest run shown => ?_, fun h s => ?_,
    fun h0 rest s => ?_⟩
  · obtain ⟨rfl, -⟩ := List.cons.inj (eq_builtFrame_of_shown run shown)
    simpa using packHeader_getLsbD_unassigned (buildFields d a (nextCount (s.seq d)) pin)
  · rw [exec, exec, execUnpack, execUnpack, unpackHeader_xor_unassigned]
  · rw [exec_parse, exec_parse, parseResponse_xor_unassigned]

/-- Settles O30: the first word of a frame is the direction above the APID, and bit 44 is all that PACK fixes. -/
theorem headerValuesEmitted : Obligations.HeaderValuesEmitted := by
  refine ⟨fun d a pin s least most => ?_, fun h => ⟨?_, fun clear => ⟨_, packHeader_unpackHeader_of_clear clear⟩⟩⟩
  · have ok : ¬payloadRefused pin := by rw [payloadRefused_iff]; omega
    obtain ⟨t, run, shown⟩ := exec_build_shows d a ok s
    obtain ⟨rest, octets⟩ := builtFrame_eq_wordOctets d a (nextCount (s.seq d)) pin
    rw [octets] at shown
    have apid := a.isLt
    refine ⟨t, _, _, _, rest, run, shown, ?_, ?_, ?_⟩
    · rintro rfl
      rw [word_octets_toNat, assemblePacketId_buildFields_toNat, show Dir.tm.bit.toNat = 0 from rfl]
      omega
    · rintro rfl
      rw [word_octets_toNat, assemblePacketId_buildFields_toNat, show Dir.tc.bit.toNat = 1 from rfl]
      omega
    · rw [extractLsb'_extractLsb'_of_add_le _ _ (by omega), assembleSequenceWord_extract_flags]
      rfl
  · rintro ⟨f, rfl⟩
    exact packHeader_getLsbD_unassigned f

/-- Settles O34: a packet is answered only where the declared payload lies in the buffer. -/
theorem parsedPacketShape : Obligations.ParsedPacketShape := by
  intro bin s t p run shown
  obtain rfl := Host.Outcome.next.inj ((exec_parse bin s).symm.trans run)
  have answer : parseResponse bin = .ok (.packet p) := by simpa using shown
  obtain ⟨h, rest, rfl, header, long, payload⟩ := eq_octetsOfHeader_of_parseResponse answer
  have size : p.payload.length = p.header.dataLength.toNat + 1 := by
    rw [payload, List.length_take_of_le long]
  have width := p.header.dataLength.isLt
  refine ⟨size, by omega, by omega, fun k inside => ?_, _, _, _, _, _, _, rest, rfl, ?_⟩
  · rw [payload, List.getElem?_take_of_lt (by omega), List.getElem?_append_right (by simp [octetsOfHeader])]
    simp [octetsOfHeader]
  · rw [headerOfOctets_cuts, header]

end Sys2Proof.Machine
end

section
/-! The sequence counter (spec/40_sequence_counter.md): `next` and its iterates (R90, R92), the counts a direction
shows (R93, R94), and one direction seen alone in a run of both (R95). -/

namespace Sys2Proof.Machine

/-! ### `next` and its iterates -/

/-- Adding 1 to a word loses nothing and reaches every value. -/
theorem nextCount_bijective : Function.Bijective nextCount := by
  rw [show nextCount = (· + 1) from funext nextCount_eq_add_one]
  exact AddGroup.addRight_bijective 1

/-- The carry out of the 15-bit sum is dropped (R90). -/
theorem nextCount_eq_setWidth (c : Count) : nextCount c = (c.setWidth 15 + 1).setWidth 14 := by
  rw [nextCount_eq_add_one, BitVec.setWidth_add _ _ (by omega), BitVec.setWidth_setWidth_of_le _ (by omega),
    BitVec.setWidth_eq]
  rfl

/-- `n` applications of `next` add `n` mod 16384 (R92). -/
theorem nextCount_iterate_toNat (n : Nat) (c : Count) : (nextCount^[n] c).toNat = (c.toNat + n) % 16384 := by
  induction n with
  | zero => exact (Nat.mod_eq_of_lt c.isLt).symm
  | succ n ih => rw [Function.iterate_succ_apply', nextCount_toNat, ih, Nat.mod_add_mod, Nat.add_assoc]

/-- `next` returns to a count exactly after a multiple of 16384 applications. -/
theorem nextCount_iterate_eq_self_iff (n : Nat) (c : Count) : nextCount^[n] c = c ↔ n % 16384 = 0 := by
  have bound := c.isLt
  rw [← BitVec.toNat_inj, nextCount_iterate_toNat]
  omega

/-! ### The counts of a direction -/

@[simp] theorem expectedCounts_length (n : Nat) : (expectedCounts n).length = n := by
  induction n with
  | zero => rfl
  | succ n ih => rw [expectedCounts, List.length_cons, ih]

/-- Entry `k` from the newest of `n` counts is that of frame `n - k` (R93). -/
theorem expectedCounts_getElem? {n k : Nat} (inside : k < n) :
    (expectedCounts n)[k]? = some (BitVec.ofNat 14 ((n - k) % 16384)) := by
  induction n generalizing k with
  | zero => omega
  | succ n ih =>
    cases k with
    | zero => rfl
    | succ k => rw [expectedCounts, List.getElem?_cons_succ, ih (by omega), Nat.add_sub_add_right]

/-- Each count is `next` of the one shown before it (R94). -/
theorem expectedCounts_getElem?_eq_map_nextCount {n k : Nat} (inside : k + 1 < n) :
    (expectedCounts n)[k]? = ((expectedCounts n)[k + 1]?).map nextCount := by
  have older : (BitVec.ofNat 14 ((n - (k + 1)) % 16384)).toNat = (n - (k + 1)) % 16384 := by
    rw [BitVec.toNat_ofNat, Nat.mod_mod]
  rw [expectedCounts_getElem? inside, expectedCounts_getElem? (by omega), Option.map_some,
    nextCount_eq_ofNat older, show n - (k + 1) + 1 = n - k by omega]

/-- Two counts are equal exactly when their frames lie a multiple of 16384 apart. -/
theorem expectedCounts_getElem?_eq_iff {n j k : Nat} (order : j < k) (inside : k < n) :
    (expectedCounts n)[j]? = (expectedCounts n)[k]? ↔ (k - j) % 16384 = 0 := by
  rw [expectedCounts_getElem? inside, expectedCounts_getElem? (by omega), Option.some_inj, ← BitVec.toNat_inj,
    BitVec.toNat_ofNat, BitVec.toNat_ofNat]
  omega

/-! ### Moves taken in a run -/

/-- Every step answers a next state. -/
theorem step_safe (s : State) : Safe s := by
  match queue : s.requests with
  | [] => exact ⟨_, step_idle queue⟩
  | .reset :: rest => exact ⟨_, step_reset queue⟩
  | .operation r :: rest =>
    obtain ⟨t, answer⟩ := exec_completes (decode r) { s with requests := rest }
    exact ⟨t, (step_operation queue).trans answer⟩

/-- A step takes the move at the head of the queue and no other. -/
theorem requests_of_step {s t : State} {m : HostMove} {rest : List HostMove} (queue : s.requests = m :: rest)
    (h : step s = .next t) : t.requests = rest := by
  cases stepEffect_of_step h with
  | idle empty => simp [empty] at queue
  | reset _ head => exact List.tail_eq_of_cons_eq (head.symm.trans queue)
  | build _ _ _ _ _ head => simpa using List.tail_eq_of_cons_eq (head.symm.trans queue)
  | answer _ _ _ head => exact List.tail_eq_of_cons_eq (head.symm.trans queue)

/-- A run takes its first move in one step, and the rest from the state that step answers. -/
theorem runMoves_cons (m : HostMove) (moves : List HostMove) (s : State) :
    ∃ t, step { s with requests := m :: moves } = .next t ∧ runMoves (m :: moves) s = runMoves moves t := by
  obtain ⟨t, h⟩ := step_safe { s with requests := m :: moves }
  refine ⟨t, h, ?_⟩
  rw [runMoves, List.length_cons, runSteps, h, runMoves, ← requests_of_step rfl h]

/-! ### One direction seen alone -/

/-- The mark of a reset event is no frame. -/
@[simp] theorem framesOf_wasReset (d : Dir) (tr : List Shown) : framesOf d (.wasReset :: tr) = framesOf d tr := rfl

/-- A response that is no frame adds none. -/
theorem framesOf_response_of_not_frame (d : Dir) {r : Response} (noFrame : ∀ f, r ≠ .ok (.frame f))
    (tr : List Shown) : framesOf d (.response r :: tr) = framesOf d tr := by
  rw [framesOf, framesOf, List.filterMap_cons_none (frameOf_response_of_not_frame d noFrame)]

/-- A built frame is one of its own direction. -/
theorem framesOf_builtFrame (d e : Dir) (a : Apid) (c : Count) (pin : List Byte) (tr : List Shown) :
    framesOf d (.response (.ok (.frame (builtFrame e a c pin))) :: tr)
      = if e = d then builtFrame e a c pin :: framesOf d tr else framesOf d tr := by
  by_cases dir : e = d
  · simp [framesOf, Shown.frameOf, dir]
  · simp [framesOf, Shown.frameOf, dir]

/-- All there is of one direction: its counter and the frames shown for it, newest first. -/
structure DirView where
  counter : Count
  frames : List (List Byte)

/-- A state as one direction sees it. -/
def State.view (s : State) (d : Dir) : DirView := ⟨s.seq d, framesOf d s.trace⟩

/-- What a move does to one direction: only a reset event and an accepted BUILD of that direction do anything. -/
def DirView.take (d : Dir) (v : DirView) : HostMove → DirView
  | .reset => ⟨0, v.frames⟩
  | .operation r =>
    match decode r with
    | .build e a pin =>
      if e = d ∧ ¬payloadRefused pin then
        ⟨nextCount v.counter, builtFrame d a (nextCount v.counter) pin :: v.frames⟩
      else v
    | .parse _ => v
    | .pack _ => v
    | .unpack _ => v

/-- An operation that writes no counter leaves every direction as it is. -/
theorem DirView.take_of_leavesCounters (d : Dir) (v : DirView) {r : Record}
    (leaves : (decode r).leavesCounters = true) : v.take d (.operation r) = v := by
  rw [take]
  cases op : decode r with
  | build e a pin =>
    rw [op] at leaves
    have bad : payloadRefused pin := of_decide_eq_true leaves
    exact if_neg fun ⟨_, ok⟩ => ok bad
  | parse | pack | unpack => rfl

/-- A BUILD of the other direction leaves a direction as it is. -/
theorem DirView.take_of_buildsIn_other {d : Dir} (v : DirView) {m : HostMove} (builds : m.buildsIn d.other = true) :
    v.take d m = v := by
  cases m with
  | reset => cases builds
  | operation r =>
    rw [HostMove.buildsIn] at builds
    rw [take]
    cases op : decode r with
    | build e a pin =>
      obtain rfl : e = d.other := by simpa [op] using builds
      exact if_neg fun ⟨dir, _⟩ => Dir.other_ne d dir
    | parse | pack | unpack => rfl

/-- A step does to each direction what the move it takes does. -/
theorem view_of_step {s t : State} {m : HostMove} {rest : List HostMove} (queue : s.requests = m :: rest)
    (h : step s = .next t) (d : Dir) : t.view d = (s.view d).take d m := by
  cases stepEffect_of_step h with
  | idle empty => simp [empty] at queue
  | reset _ head =>
    obtain ⟨rfl, -⟩ := List.cons.inj (head.symm.trans queue)
    simp [State.view, DirView.take]
  | build r _ e a pin head op ok =>
    obtain ⟨rfl, -⟩ := List.cons.inj (head.symm.trans queue)
    by_cases dir : e = d
    · subst dir
      simp [State.view, DirView.take, op, ok, framesOf_builtFrame]
    · simp [State.view, DirView.take, op, dir, framesOf_builtFrame, State.setSeq_seq_of_ne _ _ (Ne.symm dir)]
  | answer r _ x head leaves noFrame =>
    obtain ⟨rfl, -⟩ := List.cons.inj (head.symm.trans queue)
    rw [DirView.take_of_leavesCounters d _ leaves]
    simp [State.view, framesOf_response_of_not_frame d noFrame]

/-- A run does to each direction what its moves do, one after another. -/
theorem runMoves_view (d : Dir) (moves : List HostMove) (s : State) :
    ∃ t, runMoves moves s = .next t ∧ t.view d = moves.foldl (DirView.take d) (s.view d) := by
  induction moves generalizing s with
  | nil => exact ⟨_, runMoves_nil s, by simp [State.view]⟩
  | cons m moves ih =>
    obtain ⟨t, h, taken⟩ := runMoves_cons m moves s
    obtain ⟨u, run, view⟩ := ih t
    refine ⟨u, taken.trans run, ?_⟩
    rw [view, view_of_step rfl h, List.foldl_cons]
    simp [State.view]

/-- To a direction, moves with the BUILDs of the other direction left out do the same. -/
theorem foldl_take_filter_buildsIn_other (d : Dir) (moves : List HostMove) (v : DirView) :
    (moves.filter fun m => !m.buildsIn d.other).foldl (DirView.take d) v = moves.foldl (DirView.take d) v := by
  rw [List.foldl_filter]
  congr 1
  funext v m
  cases builds : m.buildsIn d.other with
  | true => exact (DirView.take_of_buildsIn_other v builds).symm
  | false => rfl

/-! ### The obligations -/

/-- Settles O11: `next` is addition of 1 to a 14-bit word. -/
theorem nextCountIsSuccessor : Obligations.NextCountIsSuccessor := by
  refine ⟨nextCount_toNat, fun c small => ?_, by decide, nextCount_eq_setWidth, nextCount_bijective⟩
  rw [nextCount_toNat, Nat.mod_eq_of_lt (by omega)]

/-- Settles O12: `next` returns to a count exactly after a multiple of 16384 applications. -/
theorem nextCountHasPeriod16384 : Obligations.NextCountHasPeriod16384 := by
  refine ⟨nextCount_iterate_toNat, fun c => (nextCount_iterate_eq_self_iff 16384 c).mpr rfl,
    fun n c positive below => ?_⟩
  rw [Ne, nextCount_iterate_eq_self_iff, Nat.mod_eq_of_lt below]
  omega

/-- Settles O43: the invariant says that the counts are the expected ones. -/
theorem countsRepeatEvery16384 : Obligations.CountsRepeatEvery16384 := by
  intro s inv d
  obtain ⟨expected, -⟩ := inv d
  obtain ⟨n, counts⟩ : ∃ n, countsOf d (sinceReset s.trace) = expectedCounts n := ⟨_, expected⟩
  rw [counts, expectedCounts_length]
  exact ⟨fun _ => expectedCounts_getElem?_eq_map_nextCount, fun _ _ => expectedCounts_getElem?_eq_iff⟩

/-- Settles O44: a run does to a direction what its moves do to it, and a BUILD of the other direction does
nothing. -/
theorem directionsDoNotInterfere : Obligations.DirectionsDoNotInterfere := by
  intro d moves s
  obtain ⟨t, run, view⟩ := runMoves_view d moves s
  obtain ⟨u, run', view'⟩ := runMoves_view d (moves.filter fun m => !m.buildsIn d.other) s
  rw [foldl_take_filter_buildsIn_other, ← view] at view'
  obtain ⟨seq, frames⟩ := DirView.mk.inj view'.symm
  exact ⟨t, u, run, run', frames, by rw [countsOf, countsOf, frames], seq⟩

end Sys2Proof.Machine
end

section
/-! The header PACK answers, field by field (spec/41_encoder.md R101, R102), and the frame BUILD answers, octet by
octet (R105, R107, R111). -/

namespace Sys2Proof.Machine

/-! ### The header PACK answers -/

/-- What is cut out of the first word of a packed header is cut out of `packetId`. -/
theorem packHeader_extract_packetId (f : HeaderFields) {i m : Nat} (inside : i + m ≤ 16) :
    (packHeader f).extractLsb' (32 + i) m = (assemblePacketId f).extractLsb' i m := by
  rw [← packetIdWord_packHeader, packetIdWord, extractLsb'_extractLsb'_of_add_le _ _ inside]

theorem packHeader_extract_version (f : HeaderFields) : (packHeader f).extractLsb' 45 3 = f.version := by
  rw [packHeader_extract_packetId f (i := 13) (by omega), assemblePacketId_eq_place]
  simp [BitVec.extractLsb'_or, extractLsb'_place_self, extractLsb'_place_of_disjoint]

theorem packHeader_extract_packetType (f : HeaderFields) : (packHeader f).extractLsb' 43 1 = f.packetType := by
  rw [packHeader_extract_packetId f (i := 11) (by omega), assemblePacketId_eq_place]
  simp [BitVec.extractLsb'_or, extractLsb'_place_self, extractLsb'_place_of_disjoint]

/-- Below the shared bit, a packed header holds the APID as it is. -/
theorem packHeader_extract_apid_low (f : HeaderFields) :
    (packHeader f).extractLsb' 32 10 = f.apid.extractLsb' 0 10 := by
  rw [packHeader_extract_packetId f (i := 0) (by omega), assemblePacketId_eq_place]
  simp [BitVec.extractLsb'_or, extractLsb'_place_of_disjoint, extractLsb'_place_zero]

theorem packHeader_extract_sequenceFlags (f : HeaderFields) :
    (packHeader f).extractLsb' 30 2 = f.sequenceFlags := by
  rw [← assembleSequenceWord_extract_flags, ← sequenceWordWord_packHeader, sequenceWordWord,
    extractLsb'_extractLsb'_of_add_le _ _ (by omega)]

theorem packHeader_extract_dataLength (f : HeaderFields) : (packHeader f).extractLsb' 0 16 = f.dataLength :=
  dataLengthWord_packHeader f

/-- The flag packs as the top bit of the APID does: PACK cannot tell the two apart (R102). -/
theorem packHeader_flag_eq_apid_bit (f : HeaderFields) (b : BitVec 1) (a : Apid) :
    packHeader { f with secondaryHeaderFlag := b, apid := a } =
      packHeader { f with secondaryHeaderFlag := 0, apid := a ||| place 11 10 b } := by
  have word : assemblePacketId { f with secondaryHeaderFlag := b, apid := a } =
      assemblePacketId { f with secondaryHeaderFlag := 0, apid := a ||| place 11 10 b } := by
    apply BitVec.eq_of_getLsbD_eq
    intro k hk
    rw [assemblePacketId_getLsbD, assemblePacketId_getLsbD]
    interval_cases k <;> simp [Bool.or_comm]
  rw [packHeader, word]
  rfl

/-- PACK shows the packed header and does nothing else. -/
theorem exec_pack (f : HeaderFields) (s : State) :
    exec (.pack f) s = .next (s.respond (.ok (.header (packHeader f)))) :=
  execPack_eq f s

/-! ### The frame BUILD answers -/

/-- The high octet of a word is its number divided by 256. -/
theorem high_octet_toNat (v : HeaderWord) : (v.extractLsb' 8 8).toNat = v.toNat / 256 := by
  have octets := word_octets_toNat v
  omega

/-- The low octet of a word is its number mod 256. -/
theorem low_octet_toNat (v : HeaderWord) : (v.extractLsb' 0 8).toNat = v.toNat % 256 := by
  have octets := word_octets_toNat v
  omega

/-- The second word of a built frame as a number: Unsegmented above the count (R105). -/
theorem assembleSequenceWord_buildFields_toNat (d : Dir) (a : Apid) (c : Count) (pin : List Byte) :
    (assembleSequenceWord (buildFields d a c pin)).toNat = 49152 + c.toNat := by
  have word : assembleSequenceWord (buildFields d a c pin) = 0b11#2 ++ c := by
    rw [← BitVec.setWidth_eq (0b11#2 ++ c), BitVec.setWidth_append_eq_shiftLeft_setWidth_or,
      assembleSequenceWord_eq_place]
    simp [buildFields, place]
  rw [word, BitVec.toNat_append, ← Nat.shiftLeft_add_eq_or_of_lt c.isLt]
  rfl

/-- The third word of a built frame as a number: one less than the payload's length (R109). -/
theorem buildFields_dataLength_toNat (d : Dir) (a : Apid) (c : Count) {pin : List Byte} (most : pin.length ≤ 65536) :
    (buildFields d a c pin).dataLength.toNat = pin.length - 1 := by
  rw [buildFields, BitVec.toNat_ofNat]
  omega

/-- A built frame is the octets of its three header words, then the payload (R108). -/
theorem builtFrame_eq_octets (d : Dir) (a : Apid) (c : Count) (pin : List Byte) :
    builtFrame d a c pin =
      (assemblePacketId (buildFields d a c pin)).extractLsb' 8 8 ::
      (assemblePacketId (buildFields d a c pin)).extractLsb' 0 8 ::
      (assembleSequenceWord (buildFields d a c pin)).extractLsb' 8 8 ::
      (assembleSequenceWord (buildFields d a c pin)).extractLsb' 0 8 ::
      (buildFields d a c pin).dataLength.extractLsb' 8 8 ::
      (buildFields d a c pin).dataLength.extractLsb' 0 8 :: pin := by
  rw [builtFrame, octetsOfHeader_eq_wordOctets, packetIdWord_packHeader, sequenceWordWord_packHeader,
    dataLengthWord_packHeader]
  rfl

/-- The first word of a TC frame is that of the TM frame with bit 11 set (R111). -/
theorem assemblePacketId_buildFields_tc (a : Apid) (c : Count) (pin : List Byte) :
    assemblePacketId (buildFields .tc a c pin) = assemblePacketId (buildFields .tm a c pin) ||| 0x0800 := by
  rw [assemblePacketId_eq_place, assemblePacketId_eq_place]
  simp [buildFields, Dir.bit, place, BitVec.or_comm]

/-- A TM frame and the TC frame of the same operands and count differ only in bit 3 of octet 0 (R111). -/
theorem builtFrame_directions (a : Apid) (c : Count) (pin : List Byte) :
    ∃ h0 rest, builtFrame .tm a c pin = h0 :: rest ∧ builtFrame .tc a c pin = (h0 ||| 0x08) :: rest ∧
      h0.toNat = a.toNat / 256 ∧ (h0 ||| 0x08).toNat = 8 + a.toNat / 256 := by
  have high : (assemblePacketId (buildFields .tc a c pin)).extractLsb' 8 8 =
      (assemblePacketId (buildFields .tm a c pin)).extractLsb' 8 8 ||| 0x08 := by
    rw [assemblePacketId_buildFields_tc, BitVec.extractLsb'_or]
    rfl
  have low : (assemblePacketId (buildFields .tc a c pin)).extractLsb' 0 8 =
      (assemblePacketId (buildFields .tm a c pin)).extractLsb' 0 8 := by
    rw [assemblePacketId_buildFields_tc, BitVec.extractLsb'_or]
    exact BitVec.or_zero
  refine ⟨_, _, builtFrame_eq_octets .tm a c pin, ?_, ?_, ?_⟩
  · rw [builtFrame_eq_octets, high, low]
    rfl
  · rw [high_octet_toNat, assemblePacketId_buildFields_toNat, show Dir.tm.bit.toNat = 0 from rfl]
    omega
  · rw [← high, high_octet_toNat, assemblePacketId_buildFields_toNat, show Dir.tc.bit.toNat = 1 from rfl]
    omega

/-! ### The obligations -/

/-- Settles O26: the frame of an accepted BUILD is the packed header's octets and the payload. -/
theorem buildCompletes : Obligations.BuildCompletes := by
  intro d a pin s least most
  have ok : ¬payloadRefused pin := by rw [payloadRefused_iff]; omega
  exact ⟨_, exec_build_accepted d a ok s, by simp, by simp, by simp, by simp [builtFrame, buildFields]⟩

/-- Settles O27: each header word of the frame as a number, cut into its two octets. -/
theorem buildFrameOctets : Obligations.BuildFrameOctets := by
  intro d a pin s least most
  have ok : ¬payloadRefused pin := by rw [payloadRefused_iff]; omega
  obtain ⟨t, run, shown⟩ := exec_build_shows d a ok s
  rw [builtFrame_eq_octets] at shown
  refine ⟨t, _, _, _, _, _, _, run, shown, ?_, ?_, ?_, ?_, ?_, ?_⟩
  · rw [high_octet_toNat, assemblePacketId_buildFields_toNat]
    omega
  · rw [low_octet_toNat, assemblePacketId_buildFields_toNat]
    omega
  · rw [high_octet_toNat, assembleSequenceWord_buildFields_toNat, nextCount_toNat]
    omega
  · rw [low_octet_toNat, assembleSequenceWord_buildFields_toNat, nextCount_toNat]
    omega
  · rw [Nat.mul_comm, word_octets_toNat, buildFields_dataLength_toNat _ _ _ most]
  · simp only [List.length_cons]
    omega

/-- Settles O29: with equal counters the two frames are built with one count. -/
theorem directionIsOneBit : Obligations.DirectionIsOneBit := by
  intro a pin s s' least most same
  have ok : ¬payloadRefused pin := by rw [payloadRefused_iff]; omega
  obtain ⟨h0, rest, tm, tc, low, high⟩ := builtFrame_directions a (nextCount (s.seq .tm)) pin
  have apid := a.isLt
  refine ⟨_, _, h0, rest, exec_build_accepted .tm a ok s, exec_build_accepted .tc a ok s', by simp [tm],
    by simp [← same, tc], by omega, by omega, by omega, by simp,
    State.setSeq_seq_other s .tm _, by simp, State.setSeq_seq_other s' .tc _⟩

/-- Settles O19: each field is cut out of the packed header where it was placed. -/
theorem packAnswersHeaderBits : Obligations.PackAnswersHeaderBits := by
  intro f s
  exact ⟨packHeader f, exec_pack f s, packHeader_extract_version f, packHeader_getLsbD_unassigned f,
    packHeader_extract_packetType f, packHeader_extract_sharedBit f, packHeader_extract_apid_low f,
    packHeader_extract_sequenceFlags f, packHeader_extract_sequenceCount f, packHeader_extract_dataLength f⟩

/-- Settles O23: a flag of 1 packs as an APID 1024 higher; the examples are closed headers, evaluated. -/
theorem packCornerCases : Obligations.PackCornerCases := by
  refine ⟨fun f s low => ?_, by decide, by decide, by decide, by decide,
    fun f l => packHeader_extract_dataLength { f with dataLength := l }⟩
  have raised : f.apid ||| place 11 10 1 = f.apid + 1024 := apid_or_place_flag low
  refine ⟨?_, ?_⟩
  · rw [exec_pack, exec_pack, packHeader_flag_eq_apid_bit f 1 f.apid, raised]
  · rw [exec_pack, exec_pack, packHeader_flag_eq_apid_bit f 1 f.apid, packHeader_flag_eq_apid_bit f 1 (f.apid + 1024),
      ← raised, BitVec.or_assoc, BitVec.or_self]

/-- Settles O14: an accepted BUILD writes its own counter; every other operation only shows its response. -/
theorem operationFrame : Obligations.OperationFrame := by
  intro i s t h
  obtain ⟨d, a, pin, rfl, ok, run⟩ | ⟨-, r, -, answer⟩ := exec_cases i s
  · obtain rfl := Host.Outcome.next.inj (run.symm.trans h)
    rw [payloadRefused_iff] at ok
    exact ⟨by simp, ⟨_, by rw [State.respond_trace, State.setSeq_trace]⟩, by simp, fun bad => absurd bad ok⟩
  · obtain rfl := Host.Outcome.next.inj ((answer s).symm.trans h)
    refine ⟨rfl, ⟨r, rfl⟩, ?_⟩
    cases i with
    | build d a pin => exact ⟨by simp, fun _ => by simp⟩
    | parse | pack | unpack => rfl

/-- Settles O31: one closed BUILD, evaluated. -/
theorem pingExample : Obligations.PingExample :=
  rfl

end Sys2Proof.Machine
end

section
/-! The decoder unit (spec/42_decoder.md): UNPACK of a packed header (R122), PARSE of six octets and the rest (R132,
R134) and of a buffer with octets appended (R128), and an operation that writes no counter put into a run (R130). -/

namespace Sys2Proof.Machine

/-! ### UNPACK -/

/-- UNPACK shows the fields and does nothing else. -/
theorem exec_unpack (h : Header) (s : State) :
    exec (.unpack h) s = .next (s.respond (.ok (.fields (unpackHeader h)))) :=
  execUnpack_eq h s

/-- UNPACK of a packed header is what was packed, with the flag and the top bit of the APID joined (R122). -/
theorem unpackHeader_packHeader (f : HeaderFields) : unpackHeader (packHeader f) =
    { f with
      secondaryHeaderFlag := f.secondaryHeaderFlag ||| f.apid.extractLsb' 10 1
      apid := f.apid ||| place 11 10 f.secondaryHeaderFlag } := by
  rw [← unpackHeader_packHeader_apid, unpackHeader_eq_cuts, packHeader_extract_version,
    packHeader_extract_packetType, packHeader_extract_sharedBit, packHeader_extract_sequenceFlags,
    packHeader_extract_sequenceCount, packHeader_extract_dataLength]

/-- The top bit of an APID placed where it stands adds nothing. -/
theorem apid_or_place_own_bit (a : Apid) : a ||| place 11 10 (a.extractLsb' 10 1) = a := by
  apply BitVec.eq_of_getLsbD_eq
  intro k hk
  interval_cases k <;> simp

/-- The top bit of an APID below 1024 is 0. -/
theorem apid_bit_eq_zero {a : Apid} (low : a.toNat < 1024) : a.extractLsb' 10 1 = 0 := by
  rw [← BitVec.toNat_inj, BitVec.extractLsb'_toNat, Nat.shiftRight_eq_div_pow, Nat.div_eq_of_lt low]
  rfl

/-- Fields come back from PACK and UNPACK unchanged exactly when the flag is the top bit of the APID (R122). -/
theorem unpackHeader_packHeader_eq_self_iff (f : HeaderFields) :
    unpackHeader (packHeader f) = f ↔ f.secondaryHeaderFlag = f.apid.extractLsb' 10 1 := by
  constructor
  · intro same
    have shared := unpackHeader_flag_eq_apid_bit (packHeader f)
    rwa [same] at shared
  · intro shared
    rw [unpackHeader_packHeader, shared, BitVec.or_self, apid_or_place_own_bit, ← shared]

/-- The fields PARSE finds in a built frame: those BUILD packed, with the top bit of the APID as flag (R133). -/
theorem unpackHeader_builtHeader (d : Dir) (a : Apid) (c : Count) (pin : List Byte) :
    unpackHeader (packHeader (buildFields d a c pin)) =
      { buildFields d a c pin with secondaryHeaderFlag := a.extractLsb' 10 1 } := by
  rw [unpackHeader_packHeader, ← unpackHeader_packHeader_apid, unpackHeader_builtHeader_apid]
  simp [buildFields]

/-! ### PARSE -/

/-- Six octets are those of the header they make. -/
theorem cons_eq_octetsOfHeader_append (h0 h1 h2 h3 h4 h5 : Byte) (rest : List Byte) :
    h0 :: h1 :: h2 :: h3 :: h4 :: h5 :: rest = octetsOfHeader (headerOfOctets h0 h1 h2 h3 h4 h5) ++ rest := by
  rw [octetsOfHeader_headerOfOctets]
  rfl

/-- The declared length of six header octets is their third pair (R70). -/
theorem unpackHeader_headerOfOctets_dataLength (h0 h1 h2 h3 h4 h5 : Byte) :
    (unpackHeader (headerOfOctets h0 h1 h2 h3 h4 h5)).dataLength.toNat = h4.toNat * 256 + h5.toNat := by
  rw [unpackHeader, headerOfOctets_eq_headerOfWords, dataLengthWord_headerOfWords, octets_append_toNat]

/-- PARSE of six octets and too few after them (R143). -/
theorem parseResponse_of_truncated (h0 h1 h2 h3 h4 h5 : Byte) {rest : List Byte}
    (few : rest.length ≤ h4.toNat * 256 + h5.toNat) :
    parseResponse (h0 :: h1 :: h2 :: h3 :: h4 :: h5 :: rest) = .failed .truncatedPayload := by
  rw [cons_eq_octetsOfHeader_append, parseResponse_octetsOfHeader, unpackHeader_headerOfOctets_dataLength, if_pos few]

/-- PARSE of six octets and the payload they declare (R134). -/
theorem parseResponse_of_complete (h0 h1 h2 h3 h4 h5 : Byte) {rest : List Byte}
    (enough : h4.toNat * 256 + h5.toNat < rest.length) :
    parseResponse (h0 :: h1 :: h2 :: h3 :: h4 :: h5 :: rest) = .ok (.packet
      ⟨unpackHeader (headerOfOctets h0 h1 h2 h3 h4 h5), rest.take (h4.toNat * 256 + h5.toNat + 1)⟩) := by
  rw [cons_eq_octetsOfHeader_append, parseResponse_octetsOfHeader, unpackHeader_headerOfOctets_dataLength,
    if_neg (Nat.not_le_of_lt enough)]

/-- Octets appended to a buffer that PARSE answers a packet for are ignored (R128). -/
theorem parseResponse_append {bin : List Byte} {p : SpacePacket} (answer : parseResponse bin = .ok (.packet p))
    (extra : List Byte) : parseResponse (bin ++ extra) = .ok (.packet p) := by
  obtain ⟨h, rest, rfl, header, long, payload⟩ := eq_octetsOfHeader_of_parseResponse answer
  have longer : ¬(rest ++ extra).length ≤ p.header.dataLength.toNat := by
    rw [List.length_append]
    omega
  rw [List.append_assoc, parseResponse_octetsOfHeader, ← header, if_neg longer, List.take_append_of_le_length long,
    ← payload]

/-- The frame BUILD answers has six octets and the payload (R108). -/
theorem builtFrame_length (d : Dir) (a : Apid) (c : Count) (pin : List Byte) :
    (builtFrame d a c pin).length = 6 + pin.length := by
  rw [builtFrame, List.length_append]
  rfl

/-! ### What a run adds to the trace -/

/-- An operation that writes no counter shows a response that is no frame, the same in every state. -/
theorem exec_of_leavesCounters {i : Instr} (leaves : i.leavesCounters = true) :
    ∃ x, (∀ f, x ≠ .ok (.frame f)) ∧ ∀ s, exec i s = .next (s.respond x) := by
  obtain ⟨d, a, pin, rfl, ok, -⟩ | ⟨-, answer⟩ := exec_cases i State.reset
  · exact absurd (of_decide_eq_true leaves) ok
  · exact answer

/-- The counters alone decide what an operation leaves in them and what it shows (R30). -/
theorem exec_of_codec (i : Instr) (s : State) : ∃ c x, ∀ queue shown,
    exec i ⟨s.codec, queue, shown⟩ = .next ⟨c, queue, .response x :: shown⟩ := by
  obtain ⟨d, a, pin, rfl, ok, -⟩ | ⟨-, x, -, answer⟩ := exec_cases i s
  · exact ⟨_, _, fun queue shown => by rw [exec_build_accepted d a ok, State.mk_seq, State.mk_setSeq]; rfl⟩
  · exact ⟨_, x, fun queue shown => answer _⟩

/-- The counters alone decide what a move leaves in them and the one entry it adds to the trace. -/
theorem step_of_codec (m : HostMove) (s : State) : ∃ c x, ∀ rest shown,
    step ⟨s.codec, m :: rest, shown⟩ = .next ⟨c, rest, x :: shown⟩ := by
  cases m with
  | reset => exact ⟨_, _, fun rest shown => step_reset rfl⟩
  | operation r =>
    obtain ⟨c, x, run⟩ := exec_of_codec (decode r) s
    exact ⟨c, .response x, fun rest shown => (step_operation rfl).trans (run rest shown)⟩

/-- A run takes its first move to counters, and adds an entry to the trace, that the counters alone decide. -/
theorem runMoves_cons_of_codec (m : HostMove) (s : State) : ∃ c x, ∀ moves queue shown,
    runMoves (m :: moves) ⟨s.codec, queue, shown⟩ = runMoves moves ⟨c, [], x :: shown⟩ := by
  obtain ⟨c, x, taken⟩ := step_of_codec m s
  refine ⟨c, x, fun moves queue shown => ?_⟩
  rw [runMoves, List.length_cons, runSteps, taken]
  rfl

/-- The counters alone decide what a list of moves leaves in them and what it adds to the trace, one entry a move. -/
theorem runMoves_of_codec (moves : List HostMove) (s : State) : ∃ c new, new.length = moves.length ∧
    ∀ queue shown, runMoves moves ⟨s.codec, queue, shown⟩ = .next ⟨c, [], new ++ shown⟩ := by
  induction moves generalizing s with
  | nil => exact ⟨_, [], rfl, fun _ _ => rfl⟩
  | cons m moves ih =>
    obtain ⟨c, x, taken⟩ := runMoves_cons_of_codec m s
    obtain ⟨c', new, size, run⟩ := ih ⟨c, [], []⟩
    refine ⟨c', new ++ [x], by simp [size], fun queue shown => ?_⟩
    rw [taken, run, List.append_assoc, List.singleton_append]

/-- A run of two lists of moves is a run of the second from where the first ends. -/
theorem runMoves_append {first : List HostMove} (second : List HostMove) {s t : State}
    (run : runMoves first s = .next t) : runMoves (first ++ second) s = runMoves second t := by
  induction first generalizing s with
  | nil =>
    obtain rfl := Host.Outcome.next.inj ((runMoves_nil s).symm.trans run)
    rfl
  | cons m first ih =>
    obtain ⟨c, x, taken⟩ := runMoves_cons_of_codec m s
    exact (taken (first ++ second) s.requests s.trace).trans (ih ((taken first _ _).symm.trans run))

/-! ### The obligations -/

/-- Settles O36: PARSE of a built frame finds the header BUILD packed, whose flag operand is 0. -/
theorem parseAfterBuild : Obligations.ParseAfterBuild := by
  intro d a pin s least most
  have ok : ¬payloadRefused pin := by rw [payloadRefused_iff]; omega
  have declared := buildFields_dataLength_toNat d a (nextCount (s.seq d)) most
  refine ⟨_, _, _, _, exec_build_accepted d a ok s, by simp,
    exec_parse_builtFrame d a (nextCount (s.seq d)) ok _, rfl, rfl, rfl, ?_⟩
  rw [unpackHeader_builtHeader, builtFrame_length]
  exact ⟨rfl, rfl, rfl, rfl, rfl, by simp [buildFields], by simp, declared, by rw [declared]; omega⟩

/-- Settles O16: no operation but BUILD reads the state. -/
theorem decoderAndPackerIgnoreState : Obligations.DecoderAndPackerIgnoreState :=
  fun _ notBuild => exec_of_opCode_ne notBuild

/-- Settles O20: the fields are cuts of the header, of which none takes bit 44. -/
theorem unpackAnswersFieldBits : Obligations.UnpackAnswersFieldBits := by
  refine fun h s => ⟨⟨unpackHeader h, exec_unpack h s, ?_⟩, ?_⟩
  · rw [unpackHeader_flag_eq_apid_bit, apid_bit_eq_one_iff, ← unpackHeader_flag_eq_apid_bit, unpackHeader_eq_cuts]
    exact ⟨rfl, rfl, rfl, rfl, rfl, rfl, rfl, Iff.rfl⟩
  · rw [exec_unpack, exec_unpack, unpackHeader_xor_unassigned]

/-- Settles O21: only the shared bit can differ, and it does not when the flag is the APID's top bit. -/
theorem unpackAfterPack : Obligations.UnpackAfterPack := by
  refine fun f => ⟨unpackHeader_packHeader f, unpackHeader_packHeader_eq_self_iff f, fun flag low => ?_⟩
  rw [unpackHeader_packHeader_eq_self_iff, flag, apid_bit_eq_zero low]

/-- Settles O22: PACK puts every field back where UNPACK cut it, and leaves bit 44 clear. -/
theorem packAfterUnpack : Obligations.PackAfterUnpack := by
  refine ⟨packHeader_unpackHeader, fun h => ⟨fun same => ?_, packHeader_unpackHeader_of_clear⟩,
    packHeader_getLsbD_unassigned⟩
  rw [← same]
  exact packHeader_getLsbD_unassigned _

/-- Settles O32: the declared length of the six octets is the only condition on those after them. -/
theorem parseCompletes : Obligations.ParseCompletes := by
  intro h0 h1 h2 h3 h4 h5 rest s enough
  rw [exec_parse, parseResponse_of_complete _ _ _ _ _ _ enough]
  rfl

/-- Settles O33: a buffer is shorter than a header, or six octets with too few, just enough, or more after them. -/
theorem parseOutcomeByLength : Obligations.ParseOutcomeByLength := by
  intro bin s
  rw [exec_parse]
  obtain short | ⟨h0, h1, h2, h3, h4, h5, rest, rfl⟩ := short_or_header bin
  · refine ⟨fun _ => by rw [parseResponse_of_short short]; rfl, fun six => by omega, fun b4 b5 _ octet5 => ?_⟩
    obtain ⟨long, -⟩ := List.getElem?_eq_some_iff.mp octet5
    omega
  · have size : (h0 :: h1 :: h2 :: h3 :: h4 :: h5 :: rest).length = 6 + rest.length := by
      simp only [List.length_cons]
      omega
    rw [size]
    refine ⟨fun short => by omega, fun six => ?_, fun b4 b5 octet4 octet5 => ?_⟩
    · rw [parseResponse_of_truncated _ _ _ _ _ _ (by omega)]
      rfl
    · obtain rfl : h4 = b4 := Option.some.inj octet4
      obtain rfl : h5 = b5 := Option.some.inj octet5
      refine ⟨fun _ few => ?_, fun just => ?_, fun more => ?_⟩
      · rw [parseResponse_of_truncated _ _ _ _ _ _ (by omega)]
        rfl
      · rw [parseResponse_of_complete _ _ _ _ _ _ (by omega), List.take_of_length_le (by omega)]
        exact ⟨_, rfl⟩
      · rw [parseResponse_of_complete _ _ _ _ _ _ (by omega)]
        exact ⟨_, rfl⟩

/-- Settles O35: PARSE does not look past the declared payload. -/
theorem octetsAfterPayloadIgnored : Obligations.OctetsAfterPayloadIgnored := by
  intro bin extra s p run
  rw [exec_parse] at run ⊢
  have answer : parseResponse bin = .ok (.packet p) := by simpa [State.respond] using run
  rw [parseResponse_append answer]
  rfl

/-- Settles O45: the operation leaves the counters as they are, and the counters alone decide what the moves after
it do. -/
theorem pureOperationsInsertAnywhere : Obligations.PureOperationsInsertAnywhere := by
  intro before after r s leaves
  obtain ⟨x, noFrame, answer⟩ := exec_of_leavesCounters leaves
  obtain ⟨c, old, oldSize, start⟩ := runMoves_of_codec before s
  obtain ⟨c', new, newSize, last⟩ := runMoves_of_codec after ⟨c, [], []⟩
  have first := start s.requests s.trace
  have inserted := (runMoves_append (.operation r :: after) first).trans
    ((runMoves_operation (answer _) rfl).trans (last _ _))
  exact ⟨_, _, new, old ++ s.trace, x, inserted, (runMoves_append after first).trans (last _ _), rfl, rfl, rfl,
    newSize, by rw [List.length_append, oldSize, Nat.add_comm], noFrame⟩

end Sys2Proof.Machine
end

section
/-! Failures (spec/60_exceptions.md): which operation fails and when (R140, R141), that a failure writes no state
(R146), and the idle step (log entry 5). -/

namespace Sys2Proof.Machine

/-! ### Status codes -/

/-- No failure has the code of OK (R76). -/
theorem Failure.code_ne_zero (x : Failure) : x.code ≠ 0 := by cases x <;> decide

/-- The failures have distinct codes (R76). -/
theorem Failure.code_injective : Function.Injective Failure.code := by
  intro x y same
  cases x <;> cases y <;> simp_all [Failure.code]

/-- The code 0 is that of OK alone. -/
theorem Response.statusCode_eq_zero_iff (r : Response) : r.statusCode = 0 ↔ ∃ v, r = .ok v := by
  cases r with
  | ok v => simp [Response.statusCode]
  | failed x => simp [Response.statusCode, x.code_ne_zero]

/-- The code of a failure is that of its response alone. -/
theorem Response.statusCode_eq_code_iff (r : Response) (x : Failure) : r.statusCode = x.code ↔ r = .failed x := by
  cases r with
  | ok v => simp [Response.statusCode, x.code_ne_zero.symm]
  | failed y => simp [Response.statusCode, Failure.code_injective.eq_iff]

/-! ### When PARSE fails -/

/-- PARSE never answers the failure of BUILD. -/
theorem parseResponse_ne_invalidPayload (bin : List Byte) : parseResponse bin ≠ .failed .invalidPayload := by
  obtain short | ⟨h, rest, rfl⟩ := short_or_octetsOfHeader bin
  · simp [parseResponse_of_short short]
  · rw [parseResponse_octetsOfHeader]
    split <;> simp

/-- PARSE answers HeaderTooShort exactly for a buffer shorter than a header (R142). -/
theorem parseResponse_eq_headerTooShort_iff (bin : List Byte) :
    parseResponse bin = .failed .headerTooShort ↔ bin.length < 6 := by
  refine ⟨fun answer => ?_, parseResponse_of_short⟩
  obtain short | ⟨h, rest, rfl⟩ := short_or_octetsOfHeader bin
  · exact short
  · rw [parseResponse_octetsOfHeader] at answer
    split at answer <;> cases answer

/-- PARSE answers TruncatedPayload exactly for a header and fewer octets than it declares (R143). -/
theorem parseResponse_eq_truncatedPayload_iff (bin : List Byte) :
    parseResponse bin = .failed .truncatedPayload ↔ ∃ b4 b5, bin[4]? = some b4 ∧ bin[5]? = some b5 ∧
      6 ≤ bin.length ∧ bin.length < 6 + (b4.toNat * 256 + b5.toNat) + 1 := by
  obtain short | ⟨h0, h1, h2, h3, h4, h5, rest, rfl⟩ := short_or_header bin
  · simp [parseResponse_of_short short, Nat.not_le_of_lt short]
  · have size : (h0 :: h1 :: h2 :: h3 :: h4 :: h5 :: rest).length = rest.length + 6 := rfl
    rw [size]
    obtain few | enough := le_or_gt rest.length (h4.toNat * 256 + h5.toNat)
    · exact iff_of_true (parseResponse_of_truncated _ _ _ _ _ _ few) ⟨h4, h5, rfl, rfl, by omega, by omega⟩
    · rw [parseResponse_of_complete _ _ _ _ _ _ enough]
      refine iff_of_false (by simp) ?_
      rintro ⟨b4, b5, octet4, octet5, -, few⟩
      obtain rfl : h4 = b4 := Option.some.inj octet4
      obtain rfl : h5 = b5 := Option.some.inj octet5
      omega

/-! ### When an operation fails -/

/-- The response an operation shows is the one it answers with. -/
theorem response_eq_of_shown {i : Instr} {s o t : State} {x r : Response} (answer : exec i s = .next (o.respond x))
    (kept : o.trace = s.trace) (run : exec i s = .next t) (shown : t.trace = .response r :: s.trace) : r = x := by
  obtain rfl := Host.Outcome.next.inj (answer.symm.trans run)
  simpa [kept] using shown.symm

/-- An operation fails exactly as a BUILD whose payload is refused, or as a PARSE whose buffer decides it (R140). -/
theorem shown_eq_failed_iff {i : Instr} {s t : State} {r : Response} (run : exec i s = .next t)
    (shown : t.trace = .response r :: s.trace) (x : Failure) :
    r = .failed x ↔ (∃ d a pin, i = .build d a pin ∧ payloadRefused pin ∧ x = .invalidPayload) ∨
      ∃ bin, i = .parse bin ∧ parseResponse bin = .failed x := by
  cases i with
  | build d a pin =>
    by_cases bad : payloadRefused pin
    · obtain rfl := response_eq_of_shown (exec_build_refused d a bad s) rfl run shown
      simp [bad, eq_comm]
    · obtain rfl := response_eq_of_shown (exec_build_accepted d a bad s) (by simp) run shown
      simp [bad]
  | parse bin =>
    obtain rfl := response_eq_of_shown (exec_parse bin s) rfl run shown
    simp
  | pack f =>
    obtain rfl := response_eq_of_shown (exec_pack f s) rfl run shown
    simp
  | unpack h =>
    obtain rfl := response_eq_of_shown (exec_unpack h s) rfl run shown
    simp

/-! ### The obligations -/

/-- Settles O37: BUILD's payload and PARSE's buffer alone decide whether an operation fails. -/
theorem failuresExactlyWhen : Obligations.FailuresExactlyWhen := by
  intro i s t r run shown
  have fails := shown_eq_failed_iff run shown
  refine ⟨?_, ?_, ?_, r.statusCode_eq_zero_iff, r.statusCode_eq_code_iff .invalidPayload,
    r.statusCode_eq_code_iff .headerTooShort, r.statusCode_eq_code_iff .truncatedPayload⟩
  · simp [fails, payloadRefused_iff, parseResponse_ne_invalidPayload]
  · simp [fails, parseResponse_eq_headerTooShort_iff]
  · simp [fails, parseResponse_eq_truncatedPayload_iff]

/-- Settles O28: a refused payload is an empty or an oversized one, and no other makes BUILD fail. -/
theorem buildRefusesBadPayload : Obligations.BuildRefusesBadPayload := by
  refine ⟨fun d a pin s bad => exec_build_refused d a ((payloadRefused_iff pin).mpr bad) s,
    fun d a pin s t run shown => ?_⟩
  obtain ⟨invalid, -⟩ := failuresExactlyWhen _ s t _ run shown
  obtain ⟨_, _, _, same, bad⟩ := invalid.mp rfl
  cases same
  exact bad

/-- Settles O38: the one operation that writes a counter shows a frame; every other response is the same in every
state. -/
theorem failureWritesNoState : Obligations.FailureWritesNoState := by
  intro i s t x run shown
  obtain ⟨d, a, pin, -, -, built⟩ | ⟨-, r, -, answer⟩ := exec_cases i s
  · cases response_eq_of_shown built (by simp) run shown
  · obtain rfl := response_eq_of_shown (answer s) rfl run shown
    exact ⟨(Host.Outcome.next.inj ((answer s).symm.trans run)).symm, answer t⟩

/-- Settles O7. -/
theorem idleStepChangesNothing : Obligations.IdleStepChangesNothing :=
  fun _ queue => step_idle queue

end Sys2Proof.Machine
end

section
/-! The reset event (spec/70_reset_and_hazards.md): what sets a counter to 0 (R170), that nothing before it is seen
after it (R173), and that a list of moves is always taken to its end (R162, R183). -/

namespace Sys2Proof.Machine

/-- `next` answers 0 at its wrap alone (R90). -/
theorem nextCount_eq_zero_iff (c : Count) : nextCount c = 0 ↔ c = 16383 :=
  nextCount_bijective.injective.eq_iff' (by decide)

/-- An operation that is no BUILD of a direction leaves that direction as it is. -/
theorem DirView.take_of_not_buildsIn {d : Dir} (v : DirView) {r : Record}
    (other : (HostMove.operation r).buildsIn d = false) : v.take d (.operation r) = v := by
  rw [HostMove.buildsIn] at other
  rw [take]
  cases op : decode r with
  | build e a pin =>
    have ne : e ≠ d := by simpa [op] using other
    exact if_neg fun ⟨dir, _⟩ => ne dir
  | parse | pack | unpack => rfl

/-- A move that is no reset event, and a BUILD of a direction only when its payload is refused, leaves that
direction as it is. -/
theorem DirView.take_of_not_accepted {d : Dir} (v : DirView) {m : HostMove} (noReset : m ≠ .reset)
    (refused : m.buildsIn d = true →
      ∃ r a pin, m = .operation r ∧ decode r = .build d a pin ∧ payloadRefused pin) : v.take d m = v := by
  cases builds : m.buildsIn d with
  | true =>
    obtain ⟨r, a, pin, rfl, op, bad⟩ := refused builds
    exact take_of_leavesCounters d v (leavesCounters_of_not_accepted (.inr ⟨d, a, pin, op, bad⟩))
  | false =>
    cases m with
    | reset => exact absurd rfl noReset
    | operation r => exact take_of_not_buildsIn v builds

/-- A counter cleared by a reset event is 0 until a move does something to its direction. -/
theorem runMoves_reset_seq {d : Dir} {mid : List HostMove} (still : ∀ v : DirView, ∀ m ∈ mid, v.take d m = v)
    (s : State) : ∃ t, runMoves (.reset :: mid) s = .next t ∧ t.seq d = 0 := by
  obtain ⟨t, run, view⟩ := runMoves_view d mid s.resetEvent
  have kept : mid.foldl (DirView.take d) (s.resetEvent.view d) = s.resetEvent.view d :=
    List.foldlRecOn (motive := (· = s.resetEvent.view d)) mid _ rfl
      fun v same m mem => (still v m mem).trans same
  obtain ⟨seq, -⟩ := DirView.mk.inj (view.trans kept)
  exact ⟨t, run, seq.trans (s.resetEvent_seq d)⟩

/-! ### The obligations -/

/-- Settles O8: of the two writers of a counter, an accepted BUILD stores the successor, which is 0 at the wrap
alone. -/
theorem resetClearsBothCounters : Obligations.ResetClearsBothCounters := by
  refine ⟨fun s rest queue => ⟨_, step_reset queue, rfl, rfl, rfl⟩, fun s t d h nonzero cleared => ?_⟩
  obtain ⟨-, writers⟩ := onlyBuildAndResetWriteCounters
  obtain ⟨rest, queue, -⟩ | ⟨r, rest, a, pin, queue, op, -, -, successor⟩ :=
    writers s t d h fun same => nonzero (same.symm.trans cleared)
  · exact .inl ⟨rest, queue⟩
  · have wraps : nextCount (s.seq d) = 0 := by
      rw [← cleared, ← BitVec.toNat_inj, nextCount_toNat, successor]
    exact .inr ⟨r, rest, a, pin, queue, op, (nextCount_eq_zero_iff _).mp wraps⟩

/-- Settles O39: every step answers a next state, and a run adds one entry a move. -/
theorem everyOperationCompletes : Obligations.EveryOperationCompletes := by
  refine ⟨step_safe, fun moves s => ?_⟩
  obtain ⟨c, new, size, run⟩ := runMoves_of_codec moves s
  exact ⟨_, run s.requests s.trace, rfl, by rw [List.length_append, size, Nat.add_comm]⟩

/-- Settles O46: the counters alone decide what a run does, and a reset event leaves those of the reset state; the
counter of a direction is still 0 when its first accepted BUILD stores the successor. -/
theorem resetForgetsHistory : Obligations.ResetForgetsHistory := by
  refine ⟨fun moves s => ?_, fun d a pin r mid s op least most quiet => ?_⟩
  · obtain ⟨c, new, -, run⟩ := runMoves_of_codec moves State.reset
    refine ⟨_, _, run s.requests (.wasReset :: s.trace), run [] [], rfl, ?_⟩
    rw [List.append_nil]
  · have ok : ¬payloadRefused pin := by rw [payloadRefused_iff]; omega
    obtain ⟨t, run, zero⟩ := runMoves_reset_seq (d := d) (mid := mid) (fun v m mem =>
      have ⟨noReset, refused⟩ := quiet m mem
      v.take_of_not_accepted noReset refused) s
    have built := exec_build_accepted d a ok { t with requests := [] }
    rw [← op, State.mk_seq, zero, State.mk_setSeq] at built
    refine ⟨_, _, t.trace, (runMoves_append [.operation r] run).trans
      ((runMoves_operation built rfl).trans (runMoves_nil _)), rfl, ?_⟩
    rw [frameCount_builtFrame]
    decide

end Sys2Proof.Machine
end
